-- ==== Sys2Proof/Word.lean ====
section
/-!
DEFINITION. The word and byte types (00_scope.md R5, R7).
-/
namespace Sys2Proof

/-- A word: 16 bits, the width of a register, a memory cell, a stack entry and the pc (R5, R7, R24). -/
abbrev Word := BitVec 16

/-- A byte of the output buffer or of an on-disk image (R32, R54). -/
abbrev Byte := BitVec 8

end Sys2Proof
end

