-- ==== Sys2Proof/Config.lean ====
section
/-!
DEFINITION. The fixed parameters of 00_scope.md R5 and the open parameters of R6.
-/
namespace Sys2Proof.Config

/-- `MEM_WORDS` (R5): memory capacity in words, 2^15. -/
abbrev memWords : Nat := 32768

/-- `NUM_REGS` (R5). -/
abbrev numRegs : Nat := 8

/-- `REG_BASE` (R5): the operand word that names register 0. -/
abbrev regBase : Nat := 32768

/-- `MODULUS` (R5): the arithmetic modulus of `add`, `mult` and `not`, 2^15. -/
abbrev modulus : Nat := 32768

/-- `NUM_OPCODES` (R5): opcode words 0 to 21. -/
abbrev numOpcodes : Nat := 22

/-- `MAX_OPERANDS` (R5). -/
abbrev maxOperands : Nat := 3

/-- `STACK_CAPACITY` (R6, R27): `none` is the value ∞ this hardware takes. The meanings of `push` and
`call` take the capacity as an argument, so that R212 can be stated of a finite one (log 12). -/
def stackCapacity : Option Nat := none

/-- The open status numbers of R6: the shell's translation of an outcome takes them as an argument
(R201, decision D15; log 19). -/
structure StatusNumbers where
  pointerExhausted : Int
  invalidRegister : Int
  divideByZero : Int
  addressRange : Int
  stackOverflow : Int
deriving DecidableEq, Repr

/-- The constraints of R6: `STATUS_POINTER_EXHAUSTED` is negative and neither −1 nor −2; the other
four are negative and, with it and with −1 and −2, pairwise distinct. -/
def StatusNumbers.wf (n : StatusNumbers) : Bool :=
  let all := [n.pointerExhausted, n.invalidRegister, n.divideByZero, n.addressRange, n.stackOverflow]
  all.all (fun z => decide (z < 0) && decide (z ≠ -1) && decide (z ≠ -2)) && decide all.Nodup

end Sys2Proof.Config
end

