-- ==== Sys2Proof/Syntax.lean ====
section
/-!
DEFINITION. The instructions as syntax: operands by the classes of 30_encoding.md R72, and one
constructor for each of the 22 rows of spec/opcode_table.json (R74, R75).
-/
namespace Sys2Proof

/-- An operand word by its class (R72). The position (destination or value) decides what the class
means (40_executor.md R93, R94). -/
inductive Operand where
  /-- 0..32767: bits 14..0 of the word. -/
  | literal (v : BitVec 15)
  /-- 32768..32775: names register `i`. -/
  | register (i : Fin 8)
  /-- 32776..65535 (R73): the raw word itself; `WellFormed.lean` checks its range. -/
  | malformed (w : Word)
deriving DecidableEq, Repr

/-- The 22 instructions (R74). Operands stand in the order `a b c` of R70; `a` is the destination in
the formats D, DV and DVV (R75). -/
inductive Instr where
  | halt
  | set (a b : Operand)
  | push (a : Operand)
  | pop (a : Operand)
  | eq (a b c : Operand)
  | gt (a b c : Operand)
  | jmp (a : Operand)
  | jt (a b : Operand)
  | jf (a b : Operand)
  | add (a b c : Operand)
  | mult (a b c : Operand)
  | mod (a b c : Operand)
  | and (a b c : Operand)
  | or (a b c : Operand)
  | not (a b : Operand)
  | rmem (a b : Operand)
  | wmem (a b : Operand)
  | call (a : Operand)
  | ret
  | out (a : Operand)
  /-- `in` (R182). The operand word is part of the encoding and the hardware never reads it (log 15). -/
  | inp (a : Operand)
  | noop
deriving DecidableEq, Repr

end Sys2Proof
end

