-- ==== Sys2Proof/WellFormed.lean ====
section
/-!
DEFINITION. Well-formed instruction terms: those that are the decoding of some words. The one thing a
term can get wrong is a `malformed` operand whose word is not in 32776..65535 (30_encoding.md R73).
-/
namespace Sys2Proof

/-- A `malformed` operand holds a word of R73's range; the other two classes are right by their types. -/
def Operand.wf : Operand → Bool
  | .literal _ => true
  | .register _ => true
  | .malformed w => decide (32776 ≤ w.toNat)

/-- The operands of an instruction, in the order of R70. -/
def Instr.operands : Instr → List Operand
  | .halt => []
  | .set a b => [a, b]
  | .push a => [a]
  | .pop a => [a]
  | .eq a b c => [a, b, c]
  | .gt a b c => [a, b, c]
  | .jmp a => [a]
  | .jt a b => [a, b]
  | .jf a b => [a, b]
  | .add a b c => [a, b, c]
  | .mult a b c => [a, b, c]
  | .mod a b c => [a, b, c]
  | .and a b c => [a, b, c]
  | .or a b c => [a, b, c]
  | .not a b => [a, b]
  | .rmem a b => [a, b]
  | .wmem a b => [a, b]
  | .call a => [a]
  | .ret => []
  | .out a => [a]
  | .inp a => [a]
  | .noop => []

/-- Every operand is well-formed. -/
def Instr.wf (i : Instr) : Bool := i.operands.all Operand.wf

/-- A destination operand word in 32768..32775 (70_reset_and_hazards.md R233 (a)). -/
def Operand.isRegister : Operand → Bool
  | .register _ => true
  | _ => false

/-- A value operand word not in 32776..65535 (70_reset_and_hazards.md R233 (b)). -/
def Operand.isPlain : Operand → Bool
  | .malformed _ => false
  | _ => true

end Sys2Proof
end

