-- ==== Sys2Proof/Decode.lean ====
section
/-!
DEFINITION. The decoder, total on any words and rejecting by name, and after it the encoder, both
from 30_encoding.md R70 to R78. The machine is word-addressed, so "bytes" are words here (R55).
-/
namespace Sys2Proof

/-- The class of an operand word (R72). -/
def Operand.ofWord (w : Word) : Operand :=
  if w.toNat < 32768 then .literal (w.setWidth 15)
  else if w.toNat ≤ 32775 then .register (Fin.ofNat 8 (w.toNat - 32768))
  else .malformed w

/-- Why a list of words is no instruction. -/
inductive DecodeError where
  /-- There is no opcode word. -/
  | noOpcodeWord
  /-- The opcode word is in 22..65535 (R78). -/
  | invalidOpcode (w : Word)
  /-- The opcode word is valid and an operand word it needs is missing (R70, R77). -/
  | operandMissing (w : Word)
deriving DecidableEq, Repr

/-- `ARITY` (R77): how many operand words follow the opcode word; `none` for a word that is no opcode. -/
def arity (w : Word) : Option Nat :=
  [0, 2, 1, 1, 3, 3, 1, 2, 2, 3, 3, 3, 3, 3, 2, 2, 2, 1, 0, 1, 1, 0][w.toNat]?

/-- Decode the instruction at the head of a list of words and give the words after it (R70 to R78).
The opcode word is compared as a whole number (R71). -/
def decode : List Word → Except DecodeError (Instr × List Word)
  | [] => .error .noOpcodeWord
  | w :: ws =>
    match w.toNat, ws with
    | 0, r => .ok (.halt, r)
    | 1, a :: b :: r => .ok (.set (.ofWord a) (.ofWord b), r)
    | 2, a :: r => .ok (.push (.ofWord a), r)
    | 3, a :: r => .ok (.pop (.ofWord a), r)
    | 4, a :: b :: c :: r => .ok (.eq (.ofWord a) (.ofWord b) (.ofWord c), r)
    | 5, a :: b :: c :: r => .ok (.gt (.ofWord a) (.ofWord b) (.ofWord c), r)
    | 6, a :: r => .ok (.jmp (.ofWord a), r)
    | 7, a :: b :: r => .ok (.jt (.ofWord a) (.ofWord b), r)
    | 8, a :: b :: r => .ok (.jf (.ofWord a) (.ofWord b), r)
    | 9, a :: b :: c :: r => .ok (.add (.ofWord a) (.ofWord b) (.ofWord c), r)
    | 10, a :: b :: c :: r => .ok (.mult (.ofWord a) (.ofWord b) (.ofWord c), r)
    | 11, a :: b :: c :: r => .ok (.mod (.ofWord a) (.ofWord b) (.ofWord c), r)
    | 12, a :: b :: c :: r => .ok (.and (.ofWord a) (.ofWord b) (.ofWord c), r)
    | 13, a :: b :: c :: r => .ok (.or (.ofWord a) (.ofWord b) (.ofWord c), r)
    | 14, a :: b :: r => .ok (.not (.ofWord a) (.ofWord b), r)
    | 15, a :: b :: r => .ok (.rmem (.ofWord a) (.ofWord b), r)
    | 16, a :: b :: r => .ok (.wmem (.ofWord a) (.ofWord b), r)
    | 17, a :: r => .ok (.call (.ofWord a), r)
    | 18, r => .ok (.ret, r)
    | 19, a :: r => .ok (.out (.ofWord a), r)
    | 20, a :: r => .ok (.inp (.ofWord a), r)
    | 21, r => .ok (.noop, r)
    | n, _ => if n < Config.numOpcodes then .error (.operandMissing w) else .error (.invalidOpcode w)

/-- The raw word of an operand: the inverse of `Operand.ofWord` (R72, R76). -/
def Operand.raw : Operand → Word
  | .literal v => v.setWidth 16
  | .register i => BitVec.ofNat 16 (Config.regBase + i.val)
  | .malformed w => w

/-- The opcode word of an instruction (R74). -/
def Instr.opcode : Instr → Word
  | .halt => 0
  | .set _ _ => 1
  | .push _ => 2
  | .pop _ => 3
  | .eq _ _ _ => 4
  | .gt _ _ _ => 5
  | .jmp _ => 6
  | .jt _ _ => 7
  | .jf _ _ => 8
  | .add _ _ _ => 9
  | .mult _ _ _ => 10
  | .mod _ _ _ => 11
  | .and _ _ _ => 12
  | .or _ _ _ => 13
  | .not _ _ => 14
  | .rmem _ _ => 15
  | .wmem _ _ => 16
  | .call _ => 17
  | .ret => 18
  | .out _ => 19
  | .inp _ => 20
  | .noop => 21

/-- The words of an instruction: its opcode word and then its operand words, in order (R70). -/
def encode (i : Instr) : List Word := i.opcode :: i.operands.map Operand.raw

/-- The words of an instruction whose bits are `w`, numbered as spec/opcode_table.json numbers them:
the first word is the least significant; bits at `nbits` and above are 0. Four words, the longest
instruction (R70). -/
def tableWords (nbits w : Nat) : List Word :=
  let v := w % 2 ^ nbits
  [BitVec.ofNat 16 v, BitVec.ofNat 16 (v / 2 ^ 16), BitVec.ofNat 16 (v / 2 ^ 32), BitVec.ofNat 16 (v / 2 ^ 48)]

/-- The instruction the decoder reads from such an instruction; none where it refuses. -/
def decodeTableWord (nbits w : Nat) : Option Instr :=
  match decode (tableWords nbits w) with
  | .ok (i, _) => some i
  | .error _ => none

end Sys2Proof
end

