-- ==== Sys2Proof/Machine/State.lean ====
section
/-!
DEFINITION. The state of the machine as plain data (10_state.md), the outcomes of a step, and reset.
-/
namespace Sys2Proof.Machine

/-- The terminal outcomes (60_exceptions.md R200). -/
inductive TermOutcome where
  | halted
  | unimplementedInput
  | invalidOpcode
  | pointerExhausted
  | invalidRegister
  | divideByZero
  | addressRange
  | stackOverflow
deriving DecidableEq, Repr

/-- The termination record (R38). `atAddr` is the spec's field `at`. -/
structure TermRecord where
  outcome : TermOutcome
  atAddr : Word
  word : Option Word := none
  prev : Option Word := none
  next : Option Word := none
  info : Option Word := none
deriving DecidableEq, Repr

/-- The run state (R38). -/
inductive RunState where
  | running
  | terminated (r : TermRecord)
deriving DecidableEq, Repr

/-- The word memory (R31, R50): cells (word address, word) with strictly rising addresses below 32768
and no cell holding 0, which is what an unlisted address reads as (R41; log 1). The form is
`Memory.wf` in Machine/Ops.lean. -/
abbrev Memory := List (Nat × Word)

/-- The state tuple of 10_state.md, and the transcripts of the two interfaces the block speaks on. -/
structure State where
  /-- The register file (R20). -/
  x : Vector Word 8
  /-- The instruction pointer (R24). -/
  pc : Word
  /-- The stack, bottom first; the top is the last element (R27 to R29). -/
  stack : List Word
  /-- The word memory (R31). -/
  mem : Memory
  /-- The output buffer (R32). -/
  out : List Byte
  /-- The run state (R38). -/
  run : RunState
  /-- The model's own: the `Flush` events issued so far, oldest first (R35; log 3). -/
  flushes : List (List Byte)
  /-- The model's own: the `Done` events issued so far, oldest first (R37; log 3). -/
  dones : List TermRecord
deriving DecidableEq, Repr

/-- Why a step can stop with a fault. -/
inductive Fault where
  /-- Raised by `step` when the run has ended: "a terminated machine takes no further step until the
  next `Reset`" (R38, R100). Safe: the hardware takes no step either (log 2). -/
  | runEnded
deriving DecidableEq, Repr

/-- Why the model gives no meaning. -/
inductive Refusal where
  /-- An instruction without a meaning yet, raised by its arm of `exec`. Safe. No arm raises it. -/
  | notModelled (mnemonic : String)
  /-- Raised by `hostReset`: a `Reset` while Running is outside the spec (R234, decision D20). Safe. -/
  | resetWhileRunning
  /-- Raised by `launch` and `hostReset`: an image of more than 32768 words (R53, D14). Safe. -/
  | imageTooLong
deriving DecidableEq, Repr

/-- What a step, a meaning or a host action answers. -/
abbrev Result := Host.Outcome State Fault Refusal

/-- The state after `Reset` with the empty image (R41, R230): every field at the value R41 gives. The
reset with an image is `State.resetWith` in Machine/Launch.lean (log 10). -/
def State.reset : State where
  x := Vector.replicate 8 0
  pc := 0
  stack := []
  mem := []
  out := []
  run := .running
  flushes := []
  dones := []

end Sys2Proof.Machine
end

