-- ==== Sys2Proof/Machine/Ops.lean ====
section
/-!
DEFINITION. The named operations over the register file, the memory, the stack, the output buffer and
the pc (00_scope.md R8), and ending a run, which is this machine's only kind of exception entry
(60_exceptions.md R211). There is no return from it (R214).
-/
namespace Sys2Proof.Machine

/-! ## The memory as data -/

/-- The cell at an address; an unlisted address reads 0 (R41). -/
def Memory.get : Memory → Nat → Word
  | [], _ => 0
  | (k, w) :: m, a => if k = a then w else Memory.get m a

/-- Set the cell at an address and keep the canonical form: writing 0 unlists it. -/
def Memory.put : Memory → Nat → Word → Memory
  | [], a, v => if v = 0 then [] else [(a, v)]
  | (k, w) :: m, a, v =>
    if a < k then (if v = 0 then (k, w) :: m else (a, v) :: (k, w) :: m)
    else if a = k then (if v = 0 then m else (a, v) :: m)
    else (k, w) :: Memory.put m a v

/-- Set consecutive cells from an address upward. -/
def Memory.putWords (m : Memory) (a : Nat) : List Word → Memory
  | [] => m
  | w :: ws => Memory.putWords (m.put a w) (a + 1) ws

/-- The canonical form from address `lo` on. -/
def Memory.wfFrom (lo : Nat) : Memory → Bool
  | [] => true
  | (k, w) :: m => decide (lo ≤ k) && decide (k < Config.memWords) && decide (w ≠ 0) && Memory.wfFrom (k + 1) m

/-- The canonical form: strictly rising addresses below 32768, no cell holding 0. -/
def Memory.wf (m : Memory) : Bool := m.wfFrom 0

/-! ## Primitives of R8 -/

/-- `x[i]` (R20). -/
def State.reg (s : State) (i : Fin 8) : Word := s.x[i]

/-- `x[i] <- v`: all 16 bits, no masking (R22). -/
def State.setReg (s : State) (i : Fin 8) (v : Word) : State := { s with x := s.x.set i v }

/-- `pc <- t` (R24). -/
def State.jump (s : State) (t : Word) : State := { s with pc := t }

/-- `npc = p + 1 + n`, for an instruction of `n` operand words (R25, R92). -/
def State.npc (s : State) (n : Nat) : Word := BitVec.ofNat 16 (s.pc.toNat + 1 + n)

/-- `MemRead(a, 1)`, defined only for addresses 0..32767 (R51). -/
def State.memRead (s : State) (a : Nat) : Option Word :=
  if a < Config.memWords then some (s.mem.get a) else none

/-- `MemWrite(a, 1, v)`, defined only for addresses 0..32767 (R52). -/
def State.memWrite (s : State) (a : Nat) (v : Word) : Option State :=
  if a < Config.memWords then some { s with mem := s.mem.put a v } else none

/-- `depth` (R8, R27). -/
def State.depth (s : State) : Nat := s.stack.length

/-- Whether a push finds the stack full: never at capacity ∞ (R28). -/
def State.stackFull (s : State) : Option Nat → Bool
  | none => false
  | some c => decide (s.depth = c)

/-- `Push(v)`: on top, which is the end of the list (R28). -/
def State.push (s : State) (v : Word) : State := { s with stack := s.stack ++ [v] }

/-- `Pop()`: the top word and the state without it; `none` on an empty stack (R29). -/
def State.pop? (s : State) : Option (Word × State) :=
  match s.stack.getLast? with
  | none => none
  | some v => some (v, { s with stack := s.stack.dropLast })

/-- `OutAppend(b)` (R32). -/
def State.emit (s : State) (b : Byte) : State := { s with out := s.out ++ [b] }

/-- Write a destination register and go on after an instruction of `n` operand words. -/
def State.writeBack (s : State) (d : Fin 8) (v : Word) (n : Nat) : State := (s.setReg d v).jump (s.npc n)

/-! ## Ending a run -/

/-- "Trap entry" (R207, R211): `run` becomes `Terminated(record)`, the whole output buffer is flushed
(R35) and the record is delivered (R37); nothing else changes. -/
def State.terminate (s : State) (r : TermRecord) : State :=
  { s with run := .terminated r, flushes := s.flushes ++ [s.out], dones := s.dones ++ [r] }

/-- End the run on behalf of the instruction at `pc` whose opcode word is `op` (R38, R207). -/
def State.raise (s : State) (o : TermOutcome) (op : Word) (info : Option Word) : State :=
  s.terminate { outcome := o, atAddr := s.pc, word := some op, info := info }

end Sys2Proof.Machine
end

