-- ==== Sys2Proof/Machine/Operands.lean ====
section
/-!
DEFINITION. Operand resolution: every operand form the spec gives (40_executor.md R93, R94). There is
one addressing mode for data, the resolved value of one operand (45_memory_access.md).
-/
namespace Sys2Proof.Machine

/-- Value resolution `Val` (R93): one level of indirection only. -/
def val (s : State) : Operand → Word
  | .literal v => v.setWidth 16
  | .register i => s.reg i
  | .malformed w => w

/-- Destination resolution `Dst` (R94): the raw word modulo 32768 is a register index, or names none. -/
def dst (o : Operand) : Option (Fin 8) :=
  if h : o.raw.toNat % 32768 < 8 then some ⟨o.raw.toNat % 32768, h⟩ else none

/-- Stage (4) of R91 for an instruction with a destination: go on with the register index, or raise
InvalidRegister with the raw word as `info` (R205). -/
def withDst (s : State) (op : Word) (a : Operand) (k : Fin 8 → Result) : Result :=
  match dst a with
  | none => .next (s.raise .invalidRegister op (some a.raw))
  | some d => k d

end Sys2Proof.Machine
end

