-- ==== Sys2Proof/Machine/Alu.lean ====
section
/-!
DEFINITION. `add`, `mult`, `mod`, `and`, `or`, `not` (44_alu.md). Operands are unsigned 16-bit words;
a sum or product is exact before it is reduced (R140).
-/
namespace Sys2Proof.Machine

/-- Reduce an exact result modulo 32768 (R140). -/
def reduce (n : Nat) : Word := BitVec.ofNat 16 (n % Config.modulus)

/-- `(b + c) mod 32768` (R142). -/
def aluAdd (b c : Word) : Word := reduce (b.toNat + c.toNat)

/-- `(b * c) mod 32768` (R143). -/
def aluMult (b c : Word) : Word := reduce (b.toNat * c.toNat)

/-- `b mod c`, for `c` not 0, with no reduction by 32768 (R144). -/
def aluMod (b c : Word) : Word := BitVec.ofNat 16 (b.toNat % c.toNat)

/-- The two-step complement: exclusive or with 0xFFFF, then modulo 32768 (R147). -/
def aluNot (b : Word) : Word := reduce (0xFFFF#16 ^^^ b).toNat

/-- `add a b c` (R142). -/
def execAdd (a b c : Operand) (s : State) : Result :=
  withDst s 9 a fun d => .next (s.writeBack d (aluAdd (val s b) (val s c)) 3)

/-- `mult a b c` (R143). -/
def execMult (a b c : Operand) (s : State) : Result :=
  withDst s 10 a fun d => .next (s.writeBack d (aluMult (val s b) (val s c)) 3)

/-- `mod a b c`: a zero divisor raises DivideByZero after the destination check (R144, R206, R209). -/
def execMod (a b c : Operand) (s : State) : Result :=
  withDst s 11 a fun d =>
    if val s c = 0 then .next (s.raise .divideByZero 11 none)
    else .next (s.writeBack d (aluMod (val s b) (val s c)) 3)

/-- `and a b c`: all 16 bits, no reduction (R145). -/
def execAnd (a b c : Operand) (s : State) : Result :=
  withDst s 12 a fun d => .next (s.writeBack d (val s b &&& val s c) 3)

/-- `or a b c`: all 16 bits, no reduction (R146). -/
def execOr (a b c : Operand) (s : State) : Result :=
  withDst s 13 a fun d => .next (s.writeBack d (val s b ||| val s c) 3)

/-- `not a b` (R147). -/
def execNot (a b : Operand) (s : State) : Result :=
  withDst s 14 a fun d => .next (s.writeBack d (aluNot (val s b)) 2)

end Sys2Proof.Machine
end

