-- ==== Sys2Proof/Machine/CallReturn.lean ====
section
/-!
DEFINITION. `call`, `ret` (46_call_ret.md).
-/
namespace Sys2Proof.Machine

/-- `call a` at a given `STACK_CAPACITY` (R170, R212): the target is resolved before the push. -/
def execCallWith (cap : Option Nat) (a : Operand) (s : State) : Result :=
  if s.stackFull cap then .next (s.raise .stackOverflow 17 none)
  else .next ((s.push (s.npc 1)).jump (val s a))

/-- `call a` (R170). -/
def execCall (a : Operand) (s : State) : Result := execCallWith Config.stackCapacity a s

/-- `ret` (R171). -/
def execRet (s : State) : Result :=
  match s.pop? with
  | none => .next (s.raise .halted 18 none)
  | some (t, u) => .next (u.jump t)

end Sys2Proof.Machine
end

