-- ==== Sys2Proof/Machine/Flags.lean ====
section
/-!
DEFINITION. The machine has no flags (10_state.md R26). What stands in their place: a comparison's
result is the word 0 or 1, and a condition is a word tested against zero on all 16 bits.
-/
namespace Sys2Proof.Machine

/-- The result of a comparison as a register value: "exactly 0 or 1" (42_compare.md R120, R121). -/
def boolWord (b : Bool) : Word := if b then 1 else 0

/-- The condition of `jt` and, complemented, of `jf`: any of the 16 bits set (43_jumps.md R131, R132). -/
def nonZero (v : Word) : Bool := decide (v ≠ 0)

end Sys2Proof.Machine
end

