-- ==== Sys2Proof/Machine/Compare.lean ====
section
/-!
DEFINITION. `eq`, `gt` (42_compare.md): comparisons of whole unsigned words (decision D11, log 9).
-/
namespace Sys2Proof.Machine

/-- `eq a b c` (R120). -/
def execEq (a b c : Operand) (s : State) : Result :=
  withDst s 4 a fun d => .next (s.writeBack d (boolWord (decide (val s b = val s c))) 3)

/-- `gt a b c`: unsigned and strict (R121). -/
def execGt (a b c : Operand) (s : State) : Result :=
  withDst s 5 a fun d => .next (s.writeBack d (boolWord (decide ((val s b).toNat > (val s c).toNat))) 3)

end Sys2Proof.Machine
end

