-- ==== Sys2Proof/Machine/Jumps.lean ====
section
/-!
DEFINITION. `jmp`, `jt`, `jf` (43_jumps.md). Targets are absolute and are written to pc unchanged; an
out-of-range one makes the NEXT step raise PointerExhausted (R133).
-/
namespace Sys2Proof.Machine

/-- `jmp a` (R130). -/
def execJmp (a : Operand) (s : State) : Result := .next (s.jump (val s a))

/-- `jt a b` (R131). -/
def execJt (a b : Operand) (s : State) : Result :=
  .next (s.jump (if nonZero (val s a) then val s b else s.npc 2))

/-- `jf a b` (R132). -/
def execJf (a b : Operand) (s : State) : Result :=
  .next (s.jump (if nonZero (val s a) then s.npc 2 else val s b))

end Sys2Proof.Machine
end

