-- ==== Sys2Proof/Machine/MemoryAccess.lean ====
section
/-!
DEFINITION. `rmem`, `wmem` (45_memory_access.md). An effective address of 32768 or more raises
AddressRange with the address as `info` (R208).
-/
namespace Sys2Proof.Machine

/-- `rmem a b`: the raw cell, not resolved and not masked (R160). -/
def execRmem (a b : Operand) (s : State) : Result :=
  withDst s 15 a fun d =>
    match s.memRead (val s b).toNat with
    | none => .next (s.raise .addressRange 15 (some (val s b)))
    | some v => .next (s.writeBack d v 2)

/-- The address a `wmem a b` stores to: the resolved value of `a` (R161, conflict C5). -/
def wmemAddress (a : Operand) (s : State) : Nat := (val s a).toNat

/-- `wmem a b`: both operands are values (R161). -/
def execWmem (a b : Operand) (s : State) : Result :=
  match s.memWrite (wmemAddress a s) (val s b) with
  | none => .next (s.raise .addressRange 16 (some (val s a)))
  | some t => .next (t.jump (s.npc 2))

end Sys2Proof.Machine
end

