-- ==== Sys2Proof/Machine/MoveStack.lean ====
section
/-!
DEFINITION. `set`, `push`, `pop` (41_move_stack.md).
-/
namespace Sys2Proof.Machine

/-- `set a b` (R110). -/
def execSet (a b : Operand) (s : State) : Result :=
  withDst s 1 a fun d => .next (s.writeBack d (val s b) 2)

/-- `push a` at a given `STACK_CAPACITY` (R111, R212). -/
def execPushWith (cap : Option Nat) (a : Operand) (s : State) : Result :=
  if s.stackFull cap then .next (s.raise .stackOverflow 2 none)
  else .next ((s.push (val s a)).jump (s.npc 1))

/-- `push a` (R111). -/
def execPush (a : Operand) (s : State) : Result := execPushWith Config.stackCapacity a s

/-- `pop a`: the destination check comes before the empty-stack check (R112, R209). -/
def execPop (a : Operand) (s : State) : Result :=
  withDst s 3 a fun d =>
    match s.pop? with
    | none => .next (s.raise .halted 3 none)
    | some (v, t) => .next (t.writeBack d v 1)

end Sys2Proof.Machine
end

