-- ==== Sys2Proof/Machine/SystemIo.lean ====
section
/-!
DEFINITION. `halt`, `out`, `in`, `noop` (47_system.md).
-/
namespace Sys2Proof.Machine

/-- `halt` (R180). -/
def execHalt (s : State) : Result := .next (s.raise .halted 0 none)

/-- Bits 7..0 of a word (R181). -/
def lowByte (v : Word) : Byte := BitVec.ofNat 8 (v.toNat % 256)

/-- `out a` (R181). -/
def execOut (a : Operand) (s : State) : Result := .next ((s.emit (lowByte (val s a))).jump (s.npc 1))

/-- `in a` always ends the run with UnimplementedInput; its operand is not looked at (R182, R202). -/
def execInp (_a : Operand) (s : State) : Result := .next (s.raise .unimplementedInput 20 none)

/-- `noop` (R183). -/
def execNoop (s : State) : Result := .next (s.jump (s.npc 0))

end Sys2Proof.Machine
end

