-- ==== Sys2Proof/Machine/Fetch.lean ====
section
/-!
DEFINITION. Stages (1) to (3) of 40_executor.md R91: fetching the words at the pc and decoding them,
or the record the step ends the run with. A read has no side effect (20_memory.md R57), so the words
are read four at a time and the decoder takes those the opcode word asks for (log 16).
-/
namespace Sys2Proof.Machine

/-- Up to `n` consecutive words from an address upward, stopping at the end of memory (R56). -/
def State.wordsFrom (s : State) (a : Nat) : Nat → List Word
  | 0 => []
  | n + 1 =>
    match s.memRead a with
    | none => []
    | some w => w :: State.wordsFrom s (a + 1) n

/-- The words an instruction at the pc is made of, and up to the longest instruction's four (R70). -/
def State.fetchWords (s : State) : List Word := s.wordsFrom s.pc.toNat (1 + Config.maxOperands)

/-- PointerExhausted at an opcode fetch: `pc` is 32768 or more (R204). -/
def opcodeFetchRecord (s : State) : TermRecord := { outcome := .pointerExhausted, atAddr := s.pc }

/-- PointerExhausted at an operand fetch: the first word that cannot be fetched is at 32768 (R204). -/
def operandFetchRecord (w : Word) : TermRecord :=
  { outcome := .pointerExhausted, atAddr := BitVec.ofNat 16 Config.memWords, word := some w }

/-- InvalidOpcode with both neighbours, each absent outside memory (R203, decision D16). -/
def invalidOpcodeRecord (s : State) (w : Word) : TermRecord where
  outcome := .invalidOpcode
  atAddr := s.pc
  word := some w
  prev := if s.pc = 0 then none else s.memRead (s.pc.toNat - 1)
  next := s.memRead (s.pc.toNat + 1)

/-- UnimplementedInput, raised on decoding opcode word 20 whether or not its operand word exists (R202). -/
def unimplementedInputRecord (s : State) : TermRecord :=
  { outcome := .unimplementedInput, atAddr := s.pc, word := some 20 }

/-- The record a step ends with when the words at the pc are no instruction (R91 stages (1) to (3)). -/
def fetchFailureRecord (s : State) : DecodeError → TermRecord
  | .noOpcodeWord => opcodeFetchRecord s
  | .invalidOpcode w => invalidOpcodeRecord s w
  | .operandMissing w => if w = 20 then unimplementedInputRecord s else operandFetchRecord w

/-- The instruction at the pc, or the record the step ends the run with. -/
def fetch (s : State) : Except TermRecord Instr :=
  match decode s.fetchWords with
  | .ok (i, _) => .ok i
  | .error e => .error (fetchFailureRecord s e)

end Sys2Proof.Machine
end

