-- ==== Sys2Proof/Machine/Step.lean ====
section
/-!
DEFINITION. One step (40_executor.md R91): it only calls `fetch` and `exec`.
-/
namespace Sys2Proof.Machine

/-- One step of the Executor. A terminated machine takes none (R38, R100; log 2). -/
def step (s : State) : Host.Outcome State Fault Refusal :=
  match s.run with
  | .terminated _ => .fault .runEnded
  | .running =>
    match fetch s with
    | .ok i => exec i s
    | .error r => .next (s.terminate r)

/-- `s` with the instruction whose table bits are `w` stored at the pc and the machine Running, so that
the next step runs it. Where four words do not fit between the pc and the end of memory, the pc is
put to 0, the entry point (R231; log 11). -/
def State.withFetchWord (s : State) (nbits w : Nat) : State :=
  let p : Word := if s.pc.toNat + (1 + Config.maxOperands) ≤ Config.memWords then s.pc else 0
  { s with pc := p, run := .running, mem := s.mem.putWords p.toNat (tableWords nbits w) }

end Sys2Proof.Machine
end

