-- ==== Sys2Proof/Machine/Assembly.lean ====
section
/-!
DEFINITION. The notation of the spec's listings (30_encoding.md R80, R81), as an assembler over its
abstract form: a mnemonic with operands, a label, or a `.word`. A label is a number here (log 20).
-/
namespace Sys2Proof.Machine

/-- The mnemonics, at their opcode numbers (R74, R80). -/
def mnemonics : List String :=
  ["halt", "set", "push", "pop", "eq", "gt", "jmp", "jt", "jf", "add", "mult", "mod", "and", "or", "not", "rmem",
   "wmem", "call", "ret", "out", "in", "noop"]

/-- An operand in the notation; a malformed word has none (R80). -/
def operandText : Operand → Option String
  | .literal v => some (toString v.toNat)
  | .register i => some ("r" ++ toString i.val)
  | .malformed _ => none

/-- An instruction in the notation: mnemonic, then the operands in the order `a b c` (R80). -/
def instrText (i : Instr) : Option String :=
  match mnemonics[i.opcode.toNat]?, i.operands.mapM operandText with
  | some name, some args => some (" ".intercalate (name :: args))
  | _, _ => none

/-- An operand as a listing has it (R80). -/
inductive AsmOperand where
  | reg (i : Fin 8)
  | dec (v : BitVec 15)
  | label (n : Nat)
deriving DecidableEq, Repr

/-- A line: `label:`, one instruction (by the opcode number of its mnemonic), or `.word v` (R80, R81). -/
inductive AsmLine where
  | label (n : Nat)
  | instr (op : Fin 22) (args : List AsmOperand)
  | word (v : Word)
deriving DecidableEq, Repr

/-- How many words a line stands for. -/
def AsmLine.size : AsmLine → Nat
  | .label _ => 0
  | .instr _ args => 1 + args.length
  | .word _ => 1

/-- The address a label stands at, for lines whose first word goes to address `a`. -/
def labelAddress (n : Nat) : Nat → List AsmLine → Option Nat
  | _, [] => none
  | a, l :: ls => if l = .label n then some a else labelAddress n (a + l.size) ls

/-- The word an operand is encoded as (R80); a label must stand at an address 0..32767. -/
def asmOperandWord (prog : List AsmLine) : AsmOperand → Option Word
  | .reg i => some (Operand.register i).raw
  | .dec v => some (Operand.literal v).raw
  | .label n =>
    match labelAddress n 0 prog with
    | none => none
    | some a => if a < Config.memWords then some (BitVec.ofNat 16 a) else none

/-- The words of one line; an instruction takes exactly the operands its opcode asks for (R77, R81). -/
def asmLineWords (prog : List AsmLine) : AsmLine → Option (List Word)
  | .label _ => some []
  | .word v => some [v]
  | .instr op args =>
    if arity (BitVec.ofNat 16 op.val) = some args.length then
      (args.mapM (asmOperandWord prog)).map (BitVec.ofNat 16 op.val :: ·)
    else none

/-- The image of a listing. -/
def assemble (prog : List AsmLine) : Option (List Word) := (prog.mapM (asmLineWords prog)).map List.flatten

end Sys2Proof.Machine
end

