-- ==== Sys2Proof/Machine/Launch.lean ====
section
/-!
DEFINITION. The host's side of a run: the on-disk image (20_memory.md R54), the image load and `Reset`
(R53, 10_state.md R34, R41, 70_reset_and_hazards.md R230 to R235), and the shell's status numbers
(60_exceptions.md R201).
-/
namespace Sys2Proof.Machine

/-- A 16-bit word from its low and its high byte (R54). -/
def wordOfBytes (lo hi : Byte) : Word := BitVec.ofNat 16 (lo.toNat + 256 * hi.toNat)

/-- The words of a byte stream: little-endian pairs, an incomplete last pair dropped (R54). -/
def imageOfBytes : List Byte → List Word
  | lo :: hi :: bs => wordOfBytes lo hi :: imageOfBytes bs
  | _ => []

/-- The memory an image load leaves: the image from address 0, zeros beyond it (R53). -/
def Memory.ofImage (image : List Word) : Memory := Memory.putWords [] 0 image

/-- The state after `Reset(image)` (R41, R230). -/
def State.resetWith (image : List Word) : State := { State.reset with mem := Memory.ofImage image }

/-- The first `Reset(image)`: an image of more than 32768 words is refused (R53, decision D14). -/
def launch (image : List Word) : Result :=
  if image.length ≤ Config.memWords then .next (State.resetWith image) else .refused .imageTooLong

/-- `Reset(image)` issued to a machine in state `s`: not while Running (R234, decision D20), and then
nothing of `s` survives (R235). -/
def hostReset (image : List Word) (s : State) : Result :=
  match s.run with
  | .running => .refused .resetWhileRunning
  | .terminated _ => launch image

/-- The shell's translation of an outcome to a status, with the open numbers of R6 as an argument (R201). -/
def statusOf (n : Config.StatusNumbers) : TermOutcome → Int
  | .halted => 0
  | .unimplementedInput => -1
  | .invalidOpcode => -2
  | .pointerExhausted => n.pointerExhausted
  | .invalidRegister => n.invalidRegister
  | .divideByZero => n.divideByZero
  | .addressRange => n.addressRange
  | .stackOverflow => n.stackOverflow

end Sys2Proof.Machine
end

