-- ==== Sys2Proof/Safety.lean ====
section
/-!
DEFINITION. The terms the claims are stated in: what an instruction leaves unchanged, what ending a run
means, what a true termination record is, and the invariant of the machine.
-/
namespace Sys2Proof.Machine

/-! ## Frames: what stays as it was from `s` to `t` -/

/-- Every register reads as before. -/
def SameRegs (s t : State) : Prop := ∀ j : Fin 8, t.reg j = s.reg j

/-- Every register but `d` reads as before. -/
def SameRegsBut (d : Fin 8) (s t : State) : Prop := ∀ j : Fin 8, j ≠ d → t.reg j = s.reg j

/-- Every address of memory reads as before. -/
def SameMem (s t : State) : Prop := ∀ a : Nat, t.memRead a = s.memRead a

/-- Every address of memory but `a` reads as before. -/
def SameMemBut (a : Nat) (s t : State) : Prop := ∀ b : Nat, b ≠ a → t.memRead b = s.memRead b

/-- The run state and the two interface transcripts are as before: nothing ended, nothing was issued. -/
def SameRun (s t : State) : Prop := t.run = s.run ∧ t.flushes = s.flushes ∧ t.dones = s.dones

/-- The pc goes on after an instruction of `n` operand words; where the instruction lies in memory
that is the natural number `p + 1 + n`, with no wrap (10_state.md R25). -/
def Advances (n : Nat) (s t : State) : Prop :=
  t.pc = s.npc n ∧ (s.pc.toNat + n < 32768 → t.pc.toNat = s.pc.toNat + 1 + n)

/-- The whole effect of an instruction of `n` operand words that writes `v` to register `d`. -/
def WritesRegister (d : Fin 8) (v : Word) (n : Nat) (s t : State) : Prop :=
  t.reg d = v ∧ SameRegsBut d s t ∧ Advances n s t ∧ t.stack = s.stack ∧ SameMem s t ∧ t.out = s.out ∧ SameRun s t

/-- The whole effect of an instruction that only writes the pc. -/
def OnlyMovesPc (s t : State) : Prop :=
  SameRegs s t ∧ t.stack = s.stack ∧ SameMem s t ∧ t.out = s.out ∧ SameRun s t

/-! ## The end of a run -/

/-- `t` is `s` with the run ended by `r`: registers, pc, stack, memory and output as they were, the
whole output flushed once and the record delivered once (R35, R37, R207, R211). -/
def Ended (s t : State) (r : TermRecord) : Prop :=
  t.run = .terminated r ∧ SameRegs s t ∧ t.pc = s.pc ∧ t.stack = s.stack ∧ SameMem s t ∧ t.out = s.out ∧
    t.flushes = s.flushes ++ [s.out] ∧ t.dones = s.dones ++ [r]

/-- The answer is a next state in which the run has ended by `r` and nothing else has changed. -/
def EndsWith (s : State) (answer : Result) (r : TermRecord) : Prop := ∃ t, answer = .next t ∧ Ended s t r

/-- Every running machine whose opcode word at the pc is `op`, and whose `n` operand words do not all
lie in memory, ends with PointerExhausted at 32768 (R204, decision D4). -/
def OperandsPastEndExhaust (op : Word) (n : Nat) : Prop :=
  ∀ s : State, s.run = .running → s.memRead s.pc.toNat = some op → 32768 ≤ s.pc.toNat + n →
    EndsWith s (step s) { outcome := .pointerExhausted, atAddr := 32768, word := some op }

/-- The record of a destination operand word that names no register (R205). -/
def badDestination (s : State) (op : Word) (a : Operand) : TermRecord :=
  { outcome := .invalidRegister, atAddr := s.pc, word := some op, info := some a.raw }

/-- The opcode words that can end a run with an outcome: the "raised by" column of R200. -/
def TermOutcome.raisedBy : TermOutcome → Word → Bool
  | .halted, w => w ∈ [0, 3, 18]
  | .unimplementedInput, w => w = 20
  | .invalidOpcode, w => decide (21 < w.toNat)
  | .pointerExhausted, w => decide (w.toNat ≤ 21) && w ∉ [0, 18, 20, 21]
  | .invalidRegister, w => w ∈ [1, 3, 4, 5, 9, 10, 11, 12, 13, 14, 15]
  | .divideByZero, w => w = 11
  | .addressRange, w => w ∈ [15, 16]
  | .stackOverflow, w => w ∈ [2, 17]

/-- The row `info` of R38's field table, of a record `r` and the state `s` the run ended in: for
InvalidRegister the destination operand word, which names no register (R205); for AddressRange the
resolved address, of 32768 or more, which is operand `b` of `rmem` and operand `a` of `wmem` (R208);
otherwise absent. -/
def TermRecord.infoTrueOf (r : TermRecord) (s : State) : Prop :=
  (r.outcome = .invalidRegister →
    ∃ w, s.memRead (s.pc.toNat + 1) = some w ∧ dst (.ofWord w) = none ∧ r.info = some w) ∧
  (r.outcome = .addressRange →
    ∃ w, s.memRead (s.pc.toNat + (if r.word = some 15 then 2 else 1)) = some w ∧
      32768 ≤ (val s (.ofWord w)).toNat ∧ r.info = some (val s (.ofWord w))) ∧
  (r.outcome ≠ .invalidRegister → r.outcome ≠ .addressRange → r.info = none)

/-- The field table of R38, of a record `r` and the state `s` the run ended in: `at` and `word` name
the terminating instruction, `prev` and `next` stand only for InvalidOpcode, and `info` holds the
offending operand word or address. -/
def TermRecord.trueOf (r : TermRecord) (s : State) : Prop :=
  (if r.outcome = .pointerExhausted ∧ 32768 ≤ s.pc.toNat then r.atAddr = s.pc ∧ r.word = none
   else if r.outcome = .pointerExhausted then r.atAddr = 32768 ∧ r.word = s.memRead s.pc.toNat
   else r.atAddr = s.pc ∧ s.pc.toNat < 32768 ∧ r.word = s.memRead s.pc.toNat) ∧
  (∀ w, r.word = some w → r.outcome.raisedBy w = true) ∧
  (r.outcome = .invalidOpcode →
    r.prev = (if s.pc = 0 then none else s.memRead (s.pc.toNat - 1)) ∧ r.next = s.memRead (s.pc.toNat + 1)) ∧
  (r.outcome ≠ .invalidOpcode → r.prev = none ∧ r.next = none) ∧
  r.infoTrueOf s

/-! ## What stands at the pc -/

/-- The words of a well-formed instruction stand in memory from the pc on (30_encoding.md R70). -/
def HoldsAtPc (i : Instr) (s : State) : Prop :=
  i.wf = true ∧ ∀ k w, (encode i)[k]? = some w → s.memRead (s.pc.toNat + k) = some w

/-- What a step of a running machine does where the opcode word at the pc is `w` (R91 stages (1) to (3),
R202, R203, R204; D4, D6, D16): end as InvalidOpcode, as UnimplementedInput or for want of an operand
word, or run the instruction that `w` and the words after it make up. -/
def StepRunsOpcodeWord (w : Word) (s : State) : Prop :=
  (21 < w.toNat → EndsWith s (step s)
    { outcome := .invalidOpcode, atAddr := s.pc, word := some w,
      prev := if s.pc = 0 then none else s.memRead (s.pc.toNat - 1),
      next := if s.pc = 32767 then none else s.memRead (s.pc.toNat + 1) }) ∧
  (w = 20 → EndsWith s (step s) { outcome := .unimplementedInput, atAddr := s.pc, word := some 20 }) ∧
  (∀ n, arity w = some n → w ≠ 20 → 32768 ≤ s.pc.toNat + n →
    EndsWith s (step s) { outcome := .pointerExhausted, atAddr := 32768, word := some w }) ∧
  (∀ n, arity w = some n → w ≠ 20 → s.pc.toNat + n < 32768 →
    ∃ i : Instr, i.wf = true ∧ i.opcode = w ∧ i.operands.length = n ∧ step s = exec i s ∧
      ∀ k o, i.operands[k]? = some o → s.memRead (s.pc.toNat + 1 + k) = some o.raw)

/-! ## Which operands an instruction uses (10_state.md R23, 30_encoding.md R75) -/

/-- The destination of the instructions that write a register. `in` has one and never writes it. -/
def writtenOperand : Instr → Option Operand
  | .set a _ | .not a _ | .rmem a _ => some a
  | .pop a => some a
  | .eq a _ _ | .gt a _ _ | .add a _ _ | .mult a _ _ | .mod a _ _ | .and a _ _ | .or a _ _ => some a
  | .push _ | .jmp _ | .call _ | .out _ | .inp _ => none
  | .jt _ _ | .jf _ _ | .wmem _ _ => none
  | .halt | .ret | .noop => none

/-- The value operands, the only place a register is read. -/
def valueOperands : Instr → List Operand
  | .set _ b | .not _ b | .rmem _ b => [b]
  | .eq _ b c | .gt _ b c | .add _ b c | .mult _ b c | .mod _ b c | .and _ b c | .or _ b c => [b, c]
  | .push a | .jmp a | .call a | .out a => [a]
  | .jt a b | .jf a b | .wmem a b => [a, b]
  | .pop _ | .inp _ => []
  | .halt | .ret | .noop => []

/-! ## The invariant of the machine -/

/-- `Flush` and `Done` are issued exactly once per run, at its end, with the whole output and the
record (R35, R37). -/
def State.interfacesOk (s : State) : Prop :=
  match s.run with
  | .running => s.flushes = [] ∧ s.dones = []
  | .terminated r => s.flushes = [s.out] ∧ s.dones = [r]

/-- What holds of the machine at every step boundary: memory in its canonical form (so no cell lies
outside 0..32767, R31), the interfaces coherent with the run state, and a true record of an outcome
this hardware can have (no StackOverflow at capacity ∞, R212). -/
def State.wf (s : State) : Prop :=
  s.mem.wf = true ∧ s.interfacesOk ∧
    ∀ r, s.run = .terminated r → r.trueOf s ∧ r.outcome ≠ .stackOverflow

/-! ## What the source calls well-formed (70_reset_and_hazards.md R233) -/

/-- The optional launch premises (a) to (e) of R233, of one instruction about to be executed. -/
def SourceDefined (i : Instr) (s : State) : Prop :=
  match i with
  | .set a b | .not a b => a.isRegister = true ∧ b.isPlain = true
  | .rmem a b => a.isRegister = true ∧ b.isPlain = true ∧ (val s b).toNat < 32768
  | .wmem a b => a.isPlain = true ∧ b.isPlain = true ∧ (val s a).toNat < 32768
  | .eq a b c | .gt a b c | .add a b c | .mult a b c | .and a b c | .or a b c =>
    a.isRegister = true ∧ b.isPlain = true ∧ c.isPlain = true
  | .mod a b c => a.isRegister = true ∧ b.isPlain = true ∧ c.isPlain = true ∧ val s c ≠ 0
  | .pop a => a.isRegister = true
  | .push a | .jmp a | .call a | .out a => a.isPlain = true
  | .jt a b | .jf a b => a.isPlain = true ∧ b.isPlain = true
  | .inp _ => False
  | .halt | .ret | .noop => True

end Sys2Proof.Machine
end

