-- ==== Sys2Proof/Certificates/Slice0/Obligations.lean ====
section
/-!
DEFINITION. The statements for the provers. Each docstring names the rules of spec/ it formalises; a
clause that rests on a decision the spec marks as its own (D<n> of 92_eei_decisions.md) or on a log
entry of the model says so.
-/

open Sys2Proof Sys2Proof.Machine

/-! ## Move and stack (41_move_stack.md) -/

/-- R110. The faults rest on the spec's decisions D4 (operand fetch) and D7 (destination). -/
def Obligations.SetCopiesItsValue : Prop :=
  (∀ (a b : Operand) (s : State) (d : Fin 8), dst a = some d →
    ∃ t, exec (.set a b) s = .next t ∧ WritesRegister d (val s b) 2 s t) ∧
  (∀ (a b : Operand) (s : State), dst a = none → EndsWith s (exec (.set a b) s) (badDestination s 1 a)) ∧
  OperandsPastEndExhaust 1 2

/-- R111, R28, R30 at STACK_CAPACITY ∞ (log 12). The fault rests on D4. -/
def Obligations.PushAppendsTheResolvedValue : Prop :=
  (∀ (a : Operand) (s : State),
    ∃ t, exec (.push a) s = .next t ∧ t.stack = s.stack ++ [val s a] ∧ SameRegs s t ∧ Advances 1 s t ∧
      SameMem s t ∧ t.out = s.out ∧ SameRun s t) ∧
  OperandsPastEndExhaust 2 1

/-- R112, R29. The order of the two checks rests on D18, the faults on D4 and D7. -/
def Obligations.PopDeliversTheTopOrHalts : Prop :=
  (∀ (a : Operand) (s : State) (d : Fin 8) (rest : List Word) (v : Word), dst a = some d → s.stack = rest ++ [v] →
    ∃ t, exec (.pop a) s = .next t ∧ t.reg d = v ∧ SameRegsBut d s t ∧ t.stack = rest ∧ Advances 1 s t ∧
      SameMem s t ∧ t.out = s.out ∧ SameRun s t) ∧
  (∀ (a : Operand) (s : State) (d : Fin 8), dst a = some d → s.stack = [] →
    EndsWith s (exec (.pop a) s) { outcome := .halted, atAddr := s.pc, word := some 3 }) ∧
  (∀ (a : Operand) (s : State), dst a = none → EndsWith s (exec (.pop a) s) (badDestination s 3 a)) ∧
  OperandsPastEndExhaust 3 1

/-! ## Compare (42_compare.md) -/

/-- R120. Comparing all 16 bits of out-of-range words is the spec's decision D11; the faults rest on D4, D7. -/
def Obligations.EqWritesOneOrZero : Prop :=
  (∀ (a b c : Operand) (s : State) (d : Fin 8), dst a = some d →
    ∃ t, exec (.eq a b c) s = .next t ∧ WritesRegister d (if val s b = val s c then 1 else 0) 3 s t) ∧
  (∀ (a b c : Operand) (s : State), dst a = none → EndsWith s (exec (.eq a b c) s) (badDestination s 4 a)) ∧
  OperandsPastEndExhaust 4 3

/-- R121: strict and unsigned. D11 for out-of-range words; the faults rest on D4, D7. -/
def Obligations.GtComparesUnsignedAndStrictly : Prop :=
  (∀ (a b c : Operand) (s : State) (d : Fin 8), dst a = some d →
    ∃ t, exec (.gt a b c) s = .next t ∧
      WritesRegister d (if (val s c).toNat < (val s b).toNat then 1 else 0) 3 s t) ∧
  (∀ (a b c : Operand) (s : State), dst a = none → EndsWith s (exec (.gt a b c) s) (badDestination s 5 a)) ∧
  OperandsPastEndExhaust 5 3

/-! ## Jumps (43_jumps.md) -/

/-- R130: the target is absolute, never checked by `jmp`, and an out-of-range one faults at the next
step. The fault of `jmp` itself rests on D4, the 16-bit pc on D2. -/
def Obligations.JmpWritesItsTargetToPc : Prop :=
  (∀ (a : Operand) (s : State), ∃ t, exec (.jmp a) s = .next t ∧ t.pc = val s a ∧ OnlyMovesPc s t ∧
    (s.run = .running → 32768 ≤ (val s a).toNat →
      EndsWith t (step t) { outcome := .pointerExhausted, atAddr := val s a })) ∧
  OperandsPastEndExhaust 6 1

/-- R131: the test is on all 16 bits (D11); the fault comes whether or not the jump is taken (R95, D4). -/
def Obligations.JtJumpsWhenNonZero : Prop :=
  (∀ (a b : Operand) (s : State), val s a ≠ 0 → ∃ t, exec (.jt a b) s = .next t ∧ t.pc = val s b ∧ OnlyMovesPc s t) ∧
  (∀ (a b : Operand) (s : State), val s a = 0 → ∃ t, exec (.jt a b) s = .next t ∧ Advances 2 s t ∧ OnlyMovesPc s t) ∧
  OperandsPastEndExhaust 7 2

/-- R132: only the 16-bit value 0 is zero (D11); the fault rests on D4. -/
def Obligations.JfJumpsWhenZero : Prop :=
  (∀ (a b : Operand) (s : State), val s a = 0 → ∃ t, exec (.jf a b) s = .next t ∧ t.pc = val s b ∧ OnlyMovesPc s t) ∧
  (∀ (a b : Operand) (s : State), val s a ≠ 0 → ∃ t, exec (.jf a b) s = .next t ∧ Advances 2 s t ∧ OnlyMovesPc s t) ∧
  OperandsPastEndExhaust 8 2

/-- R132: on the same operands exactly one of `jt` and `jf` is taken. -/
def Obligations.JtAndJfAreComplements : Prop :=
  ∀ (a b : Operand) (s : State), ∃ t u, exec (.jt a b) s = .next t ∧ exec (.jf a b) s = .next u ∧
    ((t.pc = val s b ∧ u.pc = s.npc 2) ∨ (t.pc = s.npc 2 ∧ u.pc = val s b))

/-! ## ALU (44_alu.md) -/

/-- R142, R140: the sum is exact before the reduction. The faults rest on D4, D7. -/
def Obligations.AddIsTheExactSumModulo32768 : Prop :=
  (∀ (a b c : Operand) (s : State) (d : Fin 8), dst a = some d →
    ∃ t v, exec (.add a b c) s = .next t ∧ WritesRegister d v 3 s t ∧
      v.toNat = ((val s b).toNat + (val s c).toNat) % 32768) ∧
  (∀ (a b c : Operand) (s : State), dst a = none → EndsWith s (exec (.add a b c) s) (badDestination s 9 a)) ∧
  OperandsPastEndExhaust 9 3

/-- R143, R140: the product is exact before the reduction. The faults rest on D4, D7. -/
def Obligations.MultIsTheExactProductModulo32768 : Prop :=
  (∀ (a b c : Operand) (s : State) (d : Fin 8), dst a = some d →
    ∃ t v, exec (.mult a b c) s = .next t ∧ WritesRegister d v 3 s t ∧
      v.toNat = ((val s b).toNat * (val s c).toNat) % 32768) ∧
  (∀ (a b c : Operand) (s : State), dst a = none → EndsWith s (exec (.mult a b c) s) (badDestination s 10 a)) ∧
  OperandsPastEndExhaust 10 3

/-- R144, R206: the one natural remainder below the divisor, with no reduction; a zero divisor, tested on
all 16 bits, ends the run (D8) after the destination check (D18). -/
def Obligations.ModIsTheUnsignedRemainderOrFaults : Prop :=
  (∀ (a b c : Operand) (s : State) (d : Fin 8), dst a = some d → val s c ≠ 0 →
    ∃ t v q, exec (.mod a b c) s = .next t ∧ WritesRegister d v 3 s t ∧
      (val s b).toNat = q * (val s c).toNat + v.toNat ∧ v.toNat < (val s c).toNat) ∧
  (∀ (a b c : Operand) (s : State) (d : Fin 8), dst a = some d → val s c = 0 →
    EndsWith s (exec (.mod a b c) s) { outcome := .divideByZero, atAddr := s.pc, word := some 11 }) ∧
  (∀ (a b c : Operand) (s : State), dst a = none → EndsWith s (exec (.mod a b c) s) (badDestination s 11 a)) ∧
  OperandsPastEndExhaust 11 3

/-- R145: bit by bit, with no reduction (D10 for out-of-range words). The faults rest on D4, D7. -/
def Obligations.AndIsBitwiseOnSixteenBits : Prop :=
  (∀ (a b c : Operand) (s : State) (d : Fin 8), dst a = some d →
    ∃ t v, exec (.and a b c) s = .next t ∧ WritesRegister d v 3 s t ∧
      ∀ i < 16, v.getLsbD i = ((val s b).getLsbD i && (val s c).getLsbD i)) ∧
  (∀ (a b c : Operand) (s : State), dst a = none → EndsWith s (exec (.and a b c) s) (badDestination s 12 a)) ∧
  OperandsPastEndExhaust 12 3

/-- R146: bit by bit, with no reduction (D10 for out-of-range words). The faults rest on D4, D7. -/
def Obligations.OrIsBitwiseOnSixteenBits : Prop :=
  (∀ (a b c : Operand) (s : State) (d : Fin 8), dst a = some d →
    ∃ t v, exec (.or a b c) s = .next t ∧ WritesRegister d v 3 s t ∧
      ∀ i < 16, v.getLsbD i = ((val s b).getLsbD i || (val s c).getLsbD i)) ∧
  (∀ (a b c : Operand) (s : State), dst a = none → EndsWith s (exec (.or a b c) s) (badDestination s 13 a)) ∧
  OperandsPastEndExhaust 13 3

/-- R147: the two-step form, and the closed form the rule derives from it. The faults rest on D4, D7. -/
def Obligations.NotComplementsThenReduces : Prop :=
  (∀ (a b : Operand) (s : State) (d : Fin 8), dst a = some d →
    ∃ t v, exec (.not a b) s = .next t ∧ WritesRegister d v 2 s t ∧
      v.toNat = (0xFFFF ^^^ (val s b).toNat) % 32768 ∧ v.toNat = 32767 - (val s b).toNat % 32768) ∧
  (∀ (a b : Operand) (s : State), dst a = none → EndsWith s (exec (.not a b) s) (badDestination s 14 a)) ∧
  OperandsPastEndExhaust 14 2

/-- R141 (D10), R120, R121, R240 (c): which results stay in 0..32767 whatever the inputs, and which do
when the inputs are. -/
def Obligations.ResultsStayInRange : Prop :=
  (∀ (i : Instr) (a b c : Operand) (s t : State) (d : Fin 8), i ∈ [.add a b c, .mult a b c, .not a b] →
    dst a = some d → exec i s = .next t → (t.reg d).toNat < 32768) ∧
  (∀ (i : Instr) (a b c : Operand) (s t : State) (d : Fin 8), i ∈ [.eq a b c, .gt a b c] →
    dst a = some d → exec i s = .next t → (t.reg d).toNat ≤ 1) ∧
  (∀ (i : Instr) (a b c : Operand) (s t : State) (d : Fin 8), i ∈ [.and a b c, .or a b c, .mod a b c] →
    dst a = some d → val s c ≠ 0 ∨ i ≠ .mod a b c → (val s b).toNat < 32768 → (val s c).toNat < 32768 →
    exec i s = .next t → (t.reg d).toNat < 32768)

/-! ## Memory access (45_memory_access.md) -/

/-- R160, R208: the raw cell, not resolved and not masked; an address of 32768 or more ends the run
(D9). The other faults rest on D4, D7, D18. -/
def Obligations.RmemLoadsTheRawCell : Prop :=
  (∀ (a b : Operand) (s : State) (d : Fin 8) (v : Word), dst a = some d → s.memRead (val s b).toNat = some v →
    ∃ t, exec (.rmem a b) s = .next t ∧ WritesRegister d v 2 s t) ∧
  (∀ (a b : Operand) (s : State) (d : Fin 8), dst a = some d → 32768 ≤ (val s b).toNat →
    EndsWith s (exec (.rmem a b) s)
      { outcome := .addressRange, atAddr := s.pc, word := some 15, info := some (val s b) }) ∧
  (∀ (a b : Operand) (s : State), dst a = none → EndsWith s (exec (.rmem a b) s) (badDestination s 15 a)) ∧
  OperandsPastEndExhaust 15 2

/-- R161, R52, R208: the word stored is at the resolved value of `a` and nowhere else; an address of
32768 or more ends the run (D9). The premise on memory is the invariant `StepKeepsTheInvariant` keeps. -/
def Obligations.WmemStoresAtTheResolvedAddress : Prop :=
  (∀ (a b : Operand) (s : State), s.mem.wf = true → wmemAddress a s < 32768 →
    ∃ t, exec (.wmem a b) s = .next t ∧ t.memRead (wmemAddress a s) = some (val s b) ∧
      SameMemBut (wmemAddress a s) s t ∧ SameRegs s t ∧ t.stack = s.stack ∧ t.out = s.out ∧ Advances 2 s t ∧
      SameRun s t) ∧
  (∀ (a b : Operand) (s : State), 32768 ≤ wmemAddress a s →
    EndsWith s (exec (.wmem a b) s)
      { outcome := .addressRange, atAddr := s.pc, word := some 16, info := some (val s a) }) ∧
  OperandsPastEndExhaust 16 2

/-- R31, R161: of all instructions only `wmem` changes memory, and only at the address it stores to. -/
def Obligations.OnlyWmemChangesMemory : Prop :=
  ∀ (i : Instr) (s t : State), exec i s = .next t →
    SameMem s t ∨ ∃ a b, i = .wmem a b ∧ SameMemBut (wmemAddress a s) s t

/-- R60, R239 (c): whatever word is stored at the next instruction's address, the next step fetches it as
its opcode word and does what R91 says of that word (D4, D6, D16 for the faults); vectors V102 and M3
are the words 21, a `noop`, and 0, a `halt`. -/
def Obligations.StoreIsSeenByTheNextFetch : Prop :=
  ∀ (a b : Operand) (s : State), s.mem.wf = true → s.run = .running → s.pc.toNat + 3 < 32768 →
    wmemAddress a s = s.pc.toNat + 3 →
    ∃ t, exec (.wmem a b) s = .next t ∧ t.run = .running ∧ t.pc.toNat = s.pc.toNat + 3 ∧
      t.fetchWords.head? = some (val s b) ∧ StepRunsOpcodeWord (val s b) t ∧
      (val s b = 21 → ∃ u, step t = .next u ∧ OnlyMovesPc t u ∧ u.pc.toNat = s.pc.toNat + 4) ∧
      (val s b = 0 → EndsWith t (step t) { outcome := .halted, atAddr := t.pc, word := some 0 })

/-! ## Call and return (46_call_ret.md) -/

/-- R170 at STACK_CAPACITY ∞ (log 12). The fault rests on D4. -/
def Obligations.CallPushesTheReturnAddress : Prop :=
  (∀ (a : Operand) (s : State),
    ∃ t, exec (.call a) s = .next t ∧ t.stack = s.stack ++ [s.npc 1] ∧ t.pc = val s a ∧ SameRegs s t ∧
      SameMem s t ∧ t.out = s.out ∧ SameRun s t ∧
      (s.pc.toNat + 1 < 32768 → (s.npc 1).toNat = s.pc.toNat + 2)) ∧
  OperandsPastEndExhaust 17 1

/-- R171, whole: the top word goes to pc whatever put it there (a `push` too), an out-of-range one faults
at the next step, an empty stack ends the run as Halted with status 0, and the only fetch is the opcode's. -/
def Obligations.RetJumpsToTheTopOrHalts : Prop :=
  (∀ (s : State) (rest : List Word) (v : Word), s.stack = rest ++ [v] →
    ∃ t, exec .ret s = .next t ∧ t.pc = v ∧ t.stack = rest ∧ SameRegs s t ∧ SameMem s t ∧ t.out = s.out ∧ SameRun s t ∧
      (s.run = .running → 32768 ≤ v.toNat → EndsWith t (step t) { outcome := .pointerExhausted, atAddr := v })) ∧
  (∀ (a : Operand) (s : State), ∃ t u, exec (.push a) s = .next t ∧ exec .ret t = .next u ∧ u.pc = val s a) ∧
  (∀ s : State, s.stack = [] → EndsWith s (exec .ret s) { outcome := .halted, atAddr := s.pc, word := some 18 }) ∧
  (∀ n : Config.StatusNumbers, statusOf n .halted = 0) ∧
  (∀ s : State, s.run = .running → s.memRead s.pc.toNat = some 18 → step s = exec .ret s)

/-- R111, R112 and the source's round trip T6: `push v; pop r` leaves `v` in `r` and the stack as it was. -/
def Obligations.PushThenPopRoundTrips : Prop :=
  ∀ (a b : Operand) (s : State) (d : Fin 8), dst b = some d →
    ∃ t u, exec (.push a) s = .next t ∧ exec (.pop b) t = .next u ∧ u.reg d = val s a ∧ u.stack = s.stack ∧
      SameRegsBut d s u ∧ SameMem s u ∧ u.out = s.out ∧ SameRun s u

/-- R170, R171: a `ret` straight after a `call` resumes after the call with the stack as it was. -/
def Obligations.CallThenRetResumes : Prop :=
  ∀ (a : Operand) (s : State), ∃ t u, exec (.call a) s = .next t ∧ exec .ret t = .next u ∧ t.pc = val s a ∧
    Advances 1 s u ∧ OnlyMovesPc s u

/-- R27 to R29: the stack moves by one word at its top, and only for `push`, `call`, `pop` and `ret`. -/
def Obligations.OnlyStackInstructionsMoveTheStack : Prop :=
  ∀ (i : Instr) (s t : State), exec i s = .next t →
    t.stack = s.stack ∨
    (∃ a w, (i = .push a ∨ i = .call a) ∧ t.stack = s.stack ++ [w]) ∨
    (∃ w, (i = .ret ∨ ∃ a, i = .pop a) ∧ s.stack = t.stack ++ [w])

/-- R28, R212 (D13): with a finite capacity a full stack ends the run and any other push is as at ∞; at
this hardware's ∞ no step ever ends with StackOverflow (log 12). -/
def Obligations.OnlyAFiniteStackOverflows : Prop :=
  (∀ (a : Operand) (s : State),
    EndsWith s (execPushWith (some s.depth) a s) { outcome := .stackOverflow, atAddr := s.pc, word := some 2 } ∧
    EndsWith s (execCallWith (some s.depth) a s) { outcome := .stackOverflow, atAddr := s.pc, word := some 17 }) ∧
  (∀ (c : Nat) (a : Operand) (s : State), s.depth ≠ c →
    execPushWith (some c) a s = exec (.push a) s ∧ execCallWith (some c) a s = exec (.call a) s) ∧
  (∀ (s t : State) (r : TermRecord), s.run = .running → step s = .next t → t.run = .terminated r →
    r.outcome ≠ .stackOverflow)

/-! ## System and I/O (47_system.md) -/

/-- R180, whole: the run ends as Halted with status 0, pc stays, the output is delivered, and every cell
the image did not fill is a `halt`. -/
def Obligations.HaltEndsTheRun : Prop :=
  (∀ s : State, EndsWith s (exec .halt s) { outcome := .halted, atAddr := s.pc, word := some 0 }) ∧
  (∀ s : State, s.run = .running → s.memRead s.pc.toNat = some 0 → step s = exec .halt s) ∧
  (∀ (image : List Word) (a : Nat), image.length ≤ a → a < 32768 → (State.resetWith image).memRead a = some 0) ∧
  (∀ n : Config.StatusNumbers, statusOf n .halted = 0)

/-- R181: bits 7..0 are appended to the buffer and nothing is delivered yet. The fault rests on D4. -/
def Obligations.OutAppendsTheLowByte : Prop :=
  (∀ (a : Operand) (s : State),
    ∃ t b, exec (.out a) s = .next t ∧ t.out = s.out ++ [b] ∧ b.toNat = (val s a).toNat % 256 ∧ SameRegs s t ∧
      Advances 1 s t ∧ t.stack = s.stack ∧ SameMem s t ∧ SameRun s t) ∧
  OperandsPastEndExhaust 19 1

/-- R182, R202: `in` always ends the run with UnimplementedInput, at decode, whatever its operand word
and even where there is none (D6). -/
def Obligations.InAlwaysFaults : Prop :=
  (∀ (a : Operand) (s : State),
    EndsWith s (exec (.inp a) s) { outcome := .unimplementedInput, atAddr := s.pc, word := some 20 }) ∧
  (∀ s : State, s.run = .running → s.memRead s.pc.toNat = some 20 →
    EndsWith s (step s) { outcome := .unimplementedInput, atAddr := s.pc, word := some 20 })

/-- R183, whole: `noop` changes pc alone; at 32767 it leaves 32768 and the next step faults; its only
fetch is the opcode's. -/
def Obligations.NoopOnlyAdvances : Prop :=
  (∀ s : State, ∃ t, exec .noop s = .next t ∧ OnlyMovesPc s t ∧ Advances 0 s t ∧
    (s.run = .running → s.pc = 32767 →
      EndsWith t (step t) { outcome := .pointerExhausted, atAddr := 32768 })) ∧
  (∀ s : State, s.run = .running → s.memRead s.pc.toNat = some 21 → step s = exec .noop s)

/-! ## Operand resolution and registers (40_executor.md R93, R94; 10_state.md R23) -/

/-- R93: a literal is its own value, a register reference the register's contents with no second lookup,
a malformed word itself (source-directed, decision D12). -/
def Obligations.ValueResolutionByWordClass : Prop :=
  (∀ (s : State) (w : Word), w.toNat ≤ 32767 → val s (.ofWord w) = w) ∧
  (∀ (s : State) (i : Fin 8), val s (.ofWord (BitVec.ofNat 16 (32768 + i.val))) = s.reg i) ∧
  (∀ (s : State) (w : Word), 32776 ≤ w.toNat → val s (.ofWord w) = w)

/-- R94: the raw word modulo 32768 is the register index, or names none (D7). -/
def Obligations.DestinationIsTheWordModulo32768 : Prop :=
  (∀ (w : Word) (d : Fin 8), w.toNat % 32768 = d.val → dst (.ofWord w) = some d) ∧
  (∀ w : Word, 8 ≤ w.toNat % 32768 → dst (.ofWord w) = none)

/-- R23, whole: only a written operand's register can change, and registers are read only through value
operands: two states that differ in registers alone, and agree on the values of the instruction's
value operands, go on alike but for the registers neither writes. -/
def Obligations.RegistersAreTouchedOnlyByOperands : Prop :=
  (∀ (i : Instr) (s t : State) (j : Fin 8), exec i s = .next t → t.reg j ≠ s.reg j →
    ∃ a, writtenOperand i = some a ∧ dst a = some j) ∧
  (∀ (i : Instr) (s : State) (x : Vector Word 8), (∀ o ∈ valueOperands i, val { s with x := x } o = val s o) →
    ∃ t t', exec i s = .next t ∧ exec i { s with x := x } = .next t' ∧ { t' with x := t.x } = t ∧
      ∀ j : Fin 8, (t.reg j = s.reg j ∧ t'.reg j = State.reg { s with x := x } j) ∨ t'.reg j = t.reg j)

/-! ## The step (40_executor.md R91, 60_exceptions.md) -/

/-- R91, R96: when the words at the pc are those of a well-formed instruction, the step is `exec` of it,
with nothing added around it. -/
def Obligations.StepRunsTheDecodedInstruction : Prop :=
  (∀ (s : State) (i : Instr) (rest : List Word), s.run = .running → decode s.fetchWords = .ok (i, rest) →
    step s = exec i s) ∧
  (∀ (s : State) (i : Instr), s.run = .running → i.wf = true →
    (∀ k w, (encode i)[k]? = some w → s.memRead (s.pc.toNat + k) = some w) → step s = exec i s)

/-- R91 stages (1) to (3), R203, R204, R209 (D4, D6, D16, D18): which check comes first and what it
reports, and otherwise the instruction that runs is made of exactly the fetched words. -/
def Obligations.FetchStagesInOrder : Prop :=
  ∀ s : State, s.run = .running →
    (32768 ≤ s.pc.toNat → EndsWith s (step s) { outcome := .pointerExhausted, atAddr := s.pc }) ∧
    (∀ w, s.memRead s.pc.toNat = some w → StepRunsOpcodeWord w s)

/-- R78, whole: every opcode word in 22..65535 ends the run with InvalidOpcode, wherever it stands (so no
operand word is asked for). -/
def Obligations.OpcodesAbove21AreInvalid : Prop :=
  ∀ (s : State) (w : Word), s.run = .running → s.memRead s.pc.toNat = some w → 22 ≤ w.toNat →
    ∃ r, r.outcome = .invalidOpcode ∧ r.atAddr = s.pc ∧ r.word = some w ∧ EndsWith s (step s) r

/-- R91, R38, R100: every instruction and every step of a running machine answers a next state, and a
terminated machine takes none (the fault is the model's way to say so, log 2). -/
def Obligations.EveryRunningStepAnswersNext : Prop :=
  (∀ (i : Instr) (s : State), ∃ t, exec i s = .next t) ∧
  (∀ s : State, s.run = .running → ∃ t, step s = .next t) ∧
  (∀ (s : State) (r : TermRecord), s.run = .terminated r → step s = .fault .runEnded)

/-- R97, R207, R211 (D5): a step that ends the run commits nothing and delivers output and record once. -/
def Obligations.TerminatingStepsCommitNothing : Prop :=
  ∀ (s t : State) (r : TermRecord), s.run = .running → step s = .next t → t.run = .terminated r → Ended s t r

/-- R38, R200, R203, R205, R208 (D7, D9, D16, D23): the record a step ends with says true things of the
state it ended in, field by field: `info` is the destination word that names no register, or the
address of 32768 or more. -/
def Obligations.TerminationRecordsAreTrue : Prop :=
  ∀ (s t : State) (r : TermRecord), s.run = .running → step s = .next t → t.run = .terminated r → r.trueOf s

/-- R210, R180, R112, R171: a step ends as Halted in exactly three ways, and always with status 0. That
`pop` must first have its operand word and its destination is D4, D7, D18. -/
def Obligations.HaltedIsReachedInThreeWays : Prop :=
  (∀ s : State, s.run = .running →
    ((∃ t r, step s = .next t ∧ t.run = .terminated r ∧ r.outcome = .halted) ↔
      s.memRead s.pc.toNat = some 0 ∨
      (s.memRead s.pc.toNat = some 18 ∧ s.stack = []) ∨
      (s.memRead s.pc.toNat = some 3 ∧ s.stack = [] ∧
        ∃ w d, s.memRead (s.pc.toNat + 1) = some w ∧ dst (.ofWord w) = some d))) ∧
  (∀ n : Config.StatusNumbers, statusOf n .halted = 0)

/-- R233: an instruction that meets the optional premises (a) to (e) goes on or ends as Halted, so no
outcome that rests on a decision of the spec can come of it. -/
def Obligations.SourceDefinedInstructionsGoOnOrHalt : Prop :=
  ∀ (s : State) (i : Instr) (rest : List Word), s.run = .running → decode s.fetchWords = .ok (i, rest) →
    SourceDefined i s →
    ∃ t, step s = .next t ∧ (t.run = .running ∨ ∃ r, t.run = .terminated r ∧ r.outcome = .halted)

/-! ## The output buffer and the interfaces (10_state.md R32, R35, R37) -/

/-- R32, whole: only `out` appends, always succeeds and appends one byte; no instruction's other effects
depend on the buffer; and the host sees it only when a step ends the run. -/
def Obligations.OutputIsAppendOnlyAndUnread : Prop :=
  (∀ (i : Instr) (s t : State), exec i s = .next t →
    t.out = s.out ∨ ∃ a b, i = .out a ∧ t.out = s.out ++ [b]) ∧
  (∀ (a : Operand) (s : State), ∃ t b, exec (.out a) s = .next t ∧ t.out = s.out ++ [b]) ∧
  (∀ (i : Instr) (s t : State) (o : List Byte), exec i s = .next t →
    ∃ t' added, exec i { s with out := o } = .next t' ∧ t.out = s.out ++ added ∧ t'.out = o ++ added ∧
      { t' with out := t.out, flushes := t.flushes } = t) ∧
  (∀ s t : State, s.run = .running → step s = .next t →
    (t.run = .running ∧ t.flushes = s.flushes) ∨ (t.run ≠ .running ∧ t.flushes = s.flushes ++ [s.out]))

/-- R35, R37: in every run of every image, while the machine is Running nothing has been delivered, and
once it has ended exactly one `Flush`, of the whole output, and one `Done`, of the record, have been. The
two transcripts are the model's own fields (log 3). -/
def Obligations.EveryRunFlushesExactlyOnce : Prop :=
  ∀ (image : List Word) (k : Nat) (t : State), image.length ≤ 32768 → core.run k (State.resetWith image) = .next t →
    (t.run = .running → t.flushes = [] ∧ t.dones = []) ∧
    (∀ r, t.run = .terminated r → t.flushes = [t.out] ∧ t.dones = [r])

/-! ## Encoding (30_encoding.md) -/

/-- R74, R72: words written out from the tables of R71, R72 and R74 decode to the instructions they stand
for, one of each format. -/
def Obligations.SampleWordsDecode : Prop :=
  decode [0b0000000000000000] = .ok (.halt, []) ∧
  decode [0b0000000000000010, 0b0111111111111111] = .ok (.push (.literal 32767), []) ∧
  decode [0b0000000000000011, 0b1000000000000111] = .ok (.pop (.register 7), []) ∧
  decode [0b0000000000001110, 0b1000000000000000, 0b1000000000000001] = .ok (.not (.register 0) (.register 1), []) ∧
  decode [0b0000000000010000, 0b0000000100101100, 0b1000000000001000]
    = .ok (.wmem (.literal 300) (.malformed 32776), []) ∧
  decode [0b0000000000001001, 0b1000000000000000, 0b1000000000000001, 0b0000000000000100, 0b0000000000010011]
    = .ok (.add (.register 0) (.register 1) (.literal 4), [19]) ∧
  decode [0b0000000000010110] = .error (.invalidOpcode 22) ∧
  decode [0b0000000000000100, 0b1000000000000000, 0b0000000000000001] = .error (.operandMissing 4)

/-- R70 to R77: for every instruction and every operand the encoding admits, decoding its words gives it
back and leaves the words after it. -/
def Obligations.DecodeOfEncode : Prop :=
  ∀ (i : Instr) (rest : List Word), i.wf = true → decode (encode i ++ rest) = .ok (i, rest)

/-- R70, R77, R78: what decodes is the encoding of a well-formed instruction, so no two lists of words
have one meaning and no bit is dropped; and a refusal is for one of the named reasons. -/
def Obligations.EncodeOfDecode : Prop :=
  (∀ (ws rest : List Word) (i : Instr), decode ws = .ok (i, rest) → i.wf = true ∧ ws = encode i ++ rest) ∧
  (∀ (ws : List Word) (e : DecodeError), decode ws = .error e →
    (ws = [] ∧ e = .noOpcodeWord) ∨
    (∃ w ops, ws = w :: ops ∧ 22 ≤ w.toNat ∧ e = .invalidOpcode w) ∨
    (∃ w ops n, ws = w :: ops ∧ arity w = some n ∧ ops.length < n ∧ e = .operandMissing w))

/-- R80, R81: a line of assembly that is an instruction assembles to the words of exactly one
instruction, with that opcode and those operands. Labels as numbers are log 20. -/
def Obligations.AssembledLineIsOneInstruction : Prop :=
  ∀ (prog : List AsmLine) (op : Fin 22) (args : List AsmOperand) (ws : List Word),
    asmLineWords prog (.instr op args) = some ws →
    ∃ i : Instr, decode ws = .ok (i, []) ∧ i.opcode = BitVec.ofNat 16 op.val ∧
      args.mapM (asmOperandWord prog) = some (i.operands.map Operand.raw)

/-! ## Reset, launch and the invariant -/

/-- R41, R230: the state right after reset meets the invariant, with every field as R41 lists it (pc 0 is
decision D1, log 4; the two transcripts are log 3). -/
def Obligations.ResetMeetsTheInvariant : Prop :=
  State.reset.wf ∧ (∀ i : Fin 8, State.reset.reg i = 0) ∧ State.reset.pc = 0 ∧ State.reset.stack = [] ∧
    State.reset.out = [] ∧ State.reset.run = .running ∧ ∀ a < 32768, State.reset.memRead a = some 0

/-- R53, R41, R230, R231 (D1, D14): a launch with any valid image gives a running machine that meets the
invariant and holds the image, word for word, and zeros beyond it; a longer image is refused. -/
def Obligations.LaunchHoldsTheImage : Prop :=
  (∀ image : List Word, image.length ≤ 32768 →
    ∃ t, launch image = .next t ∧ t.wf ∧ t.run = .running ∧ t.pc = 0 ∧ t.stack = [] ∧ t.out = [] ∧
      (∀ i : Fin 8, t.reg i = 0) ∧ (∀ a w, image[a]? = some w → t.memRead a = some w) ∧
      (∀ a, image.length ≤ a → a < 32768 → t.memRead a = some 0)) ∧
  (∀ image : List Word, 32768 < image.length → launch image = .refused .imageTooLong)

/-- R54: the words of a byte stream are its little-endian pairs, and an incomplete last pair is dropped. -/
def Obligations.ImageWordsAreLittleEndianPairs : Prop :=
  ∀ bytes : List Byte,
    (imageOfBytes bytes).length = bytes.length / 2 ∧
    ∀ (i : Nat) (lo hi : Byte), bytes[2 * i]? = some lo → bytes[2 * i + 1]? = some hi →
      ∃ w, (imageOfBytes bytes)[i]? = some w ∧ w.toNat = lo.toNat + 256 * hi.toNat

/-- R235: a second `Reset` gives the same state as the first, whatever the previous run did. -/
def Obligations.ResetForgetsThePreviousRun : Prop :=
  ∀ (image : List Word) (s : State) (r : TermRecord), s.run = .terminated r → image.length ≤ 32768 →
    hostReset image s = launch image ∧ hostReset image s = .next (State.resetWith image)

/-- R201, R6, R200 (D15): with status numbers that meet R6's constraints, the eight outcomes have eight
statuses, and Halted alone is not negative. -/
def Obligations.StatusesTellOutcomesApart : Prop :=
  ∀ n : Config.StatusNumbers, n.wf = true →
    (∀ o o' : TermOutcome, statusOf n o = statusOf n o' → o = o') ∧
    (∀ o : TermOutcome, statusOf n o < 0 ↔ o ≠ .halted) ∧
    statusOf n .halted = 0 ∧ statusOf n .unimplementedInput = -1 ∧ statusOf n .invalidOpcode = -2

/-- The invariant of the machine, kept by every step from every state that meets it: memory in its
canonical form (R31), `Flush` and `Done` issued exactly at the end of the run (R35, R37), and a true
record of an outcome this hardware can have (R38, R212). -/
def Obligations.StepKeepsTheInvariant : Prop :=
  ∀ s t : State, s.wf → step s = .next t → t.wf
end

