-- ==== Sys2Proof/Laws/Alu.lean ====
section
/-!
SUPPORT. The computations of the ALU, the compares and `out` as natural numbers.
-/
namespace Sys2Proof.Machine

@[simp] theorem reduce_toNat (n : Nat) : (reduce n).toNat = n % 32768 := by
  simp only [reduce, Config.modulus, BitVec.toNat_ofNat]
  omega

theorem aluAdd_toNat (b c : Word) : (aluAdd b c).toNat = (b.toNat + c.toNat) % 32768 := reduce_toNat _

theorem aluMult_toNat (b c : Word) : (aluMult b c).toNat = (b.toNat * c.toNat) % 32768 := reduce_toNat _

theorem toNat_pos_of_ne_zero {c : Word} (h : c ≠ 0) : 0 < c.toNat :=
  Nat.pos_of_ne_zero fun e => h (BitVec.eq_of_toNat_eq (by simpa using e))

theorem aluMod_toNat (b : Word) {c : Word} (h : c ≠ 0) : (aluMod b c).toNat = b.toNat % c.toNat := by
  have := Nat.mod_lt b.toNat (toNat_pos_of_ne_zero h)
  simp only [aluMod, BitVec.toNat_ofNat]
  omega

/-- The two-step complement in closed form (44_alu.md R147). -/
theorem aluNot_toNat (b : Word) : (aluNot b).toNat = 32767 - b.toNat % 32768 := by
  have hx : 0xFFFF#16 ^^^ b = ~~~b := by
    rw [show 0xFFFF#16 = BitVec.allOnes 16 from rfl, BitVec.allOnes_xor]
  rw [aluNot, reduce_toNat, hx, BitVec.toNat_not]
  have := b.isLt
  omega

theorem boolWord_decide (p : Prop) [Decidable p] : boolWord (decide p) = if p then 1 else 0 := by
  by_cases h : p <;> simp [boolWord, h]

theorem lowByte_toNat (v : Word) : (lowByte v).toNat = v.toNat % 256 := by
  simp only [lowByte, BitVec.toNat_ofNat]
  omega

end Sys2Proof.Machine
end

