-- ==== Sys2Proof/Laws/Decode.lean ====
section
/-!
SUPPORT. Operand words and operand terms are two spellings of one thing (30_encoding.md R72, R73).
-/
namespace Sys2Proof

@[simp] theorem Operand.raw_literal_toNat (v : BitVec 15) : (Operand.literal v).raw.toNat = v.toNat := by
  simp [Operand.raw, BitVec.toNat_setWidth]
  omega

@[simp] theorem Operand.raw_register_toNat (i : Fin 8) : (Operand.register i).raw.toNat = 32768 + i.val := by
  simp [Operand.raw, Config.regBase]
  omega

@[simp] theorem Operand.raw_malformed (w : Word) : (Operand.malformed w).raw = w := rfl

theorem Operand.ofWord_literal {w : Word} (h : w.toNat < 32768) : Operand.ofWord w = .literal (w.setWidth 15) := by
  simp [Operand.ofWord, h]

theorem Operand.ofWord_register {w : Word} {i : Fin 8} (h : w.toNat = 32768 + i.val) : Operand.ofWord w = .register i := by
  have hi := i.isLt
  have he : Fin.ofNat 8 (w.toNat - 32768) = i :=
    Fin.ext (show (w.toNat - 32768) % 8 = i.val by omega)
  exact (if_neg (by omega)).trans ((if_pos (by omega)).trans (congrArg Operand.register he))

theorem Operand.ofWord_malformed {w : Word} (h : 32776 ≤ w.toNat) : Operand.ofWord w = .malformed w := by
  simp [Operand.ofWord, show ¬w.toNat < 32768 by omega, show ¬w.toNat ≤ 32775 by omega]

/-- Every word is in exactly one class (R72). -/
theorem Operand.word_cases (w : Word) :
    w.toNat < 32768 ∨ (∃ i : Fin 8, w.toNat = 32768 + i.val) ∨ 32776 ≤ w.toNat := by
  rcases Nat.lt_or_ge w.toNat 32768 with h | h
  · exact .inl h
  · rcases Nat.lt_or_ge w.toNat 32776 with h' | h'
    · exact .inr (.inl ⟨⟨w.toNat - 32768, by omega⟩, by simp; omega⟩)
    · exact .inr (.inr h')

/-- No bit of an operand word is lost. -/
@[simp] theorem Operand.raw_ofWord (w : Word) : (Operand.ofWord w).raw = w := by
  apply BitVec.eq_of_toNat_eq
  rcases Operand.word_cases w with h | ⟨i, h⟩ | h
  · rw [Operand.ofWord_literal h, Operand.raw_literal_toNat, BitVec.toNat_setWidth]
    omega
  · rw [Operand.ofWord_register h, Operand.raw_register_toNat, h]
  · rw [Operand.ofWord_malformed h, Operand.raw_malformed]

/-- A well-formed operand is the class of its own word. -/
theorem Operand.ofWord_raw {o : Operand} (h : o.wf = true) : Operand.ofWord o.raw = o := by
  cases o with
  | literal v =>
    rw [Operand.ofWord_literal (by rw [Operand.raw_literal_toNat]; omega)]
    congr 1
    apply BitVec.eq_of_toNat_eq
    rw [BitVec.toNat_setWidth, Operand.raw_literal_toNat]
    omega
  | register i => exact Operand.ofWord_register (Operand.raw_register_toNat i)
  | malformed w => exact Operand.ofWord_malformed (by simpa [Operand.wf] using h)

/-- The decoder only makes well-formed operands. -/
@[simp] theorem Operand.wf_ofWord (w : Word) : (Operand.ofWord w).wf = true := by
  rcases Operand.word_cases w with h | ⟨i, h⟩ | h
  · rw [Operand.ofWord_literal h]; rfl
  · rw [Operand.ofWord_register h]; rfl
  · rw [Operand.ofWord_malformed h]; simpa [Operand.wf] using h

end Sys2Proof
end

