-- ==== Sys2Proof/Laws/Memory.lean ====
section
/-!
SUPPORT. The laws of the word memory: read after write, and every memory operation keeps the
canonical form.
-/
namespace Sys2Proof.Machine

@[simp] theorem Memory.wfFrom_nil (lo : Nat) : Memory.wfFrom lo [] = true := rfl

theorem Memory.wfFrom_cons (lo k : Nat) (w : Word) (m : Memory) :
    Memory.wfFrom lo ((k, w) :: m) = true ↔ lo ≤ k ∧ k < 32768 ∧ w ≠ 0 ∧ Memory.wfFrom (k + 1) m = true := by
  simp [Memory.wfFrom, Config.memWords, and_assoc]

theorem Memory.wfFrom_mono {lo lo' : Nat} (h : lo' ≤ lo) : ∀ {m : Memory}, m.wfFrom lo = true → m.wfFrom lo' = true
  | [], _ => rfl
  | (k, w) :: m, hm => by
    rw [Memory.wfFrom_cons] at hm ⊢
    exact ⟨h.trans hm.1, hm.2⟩

/-- An address below the form's start is not listed, so it reads 0. -/
theorem Memory.get_eq_zero_of_lt {a : Nat} : ∀ {lo : Nat} {m : Memory}, m.wfFrom lo = true → a < lo → m.get a = 0
  | _, [], _, _ => rfl
  | lo, (k, w) :: m, hm, ha => by
    rw [Memory.wfFrom_cons] at hm
    simp only [Memory.get, show k ≠ a by omega, if_false]
    exact Memory.get_eq_zero_of_lt hm.2.2.2 (by omega)

/-- An address outside memory is not listed. -/
theorem Memory.get_eq_zero_of_ge {a : Nat} : ∀ {lo : Nat} {m : Memory}, m.wfFrom lo = true → 32768 ≤ a → m.get a = 0
  | _, [], _, _ => rfl
  | lo, (k, w) :: m, hm, ha => by
    rw [Memory.wfFrom_cons] at hm
    simp only [Memory.get, show k ≠ a by omega, if_false]
    exact Memory.get_eq_zero_of_ge hm.2.2.2 ha

/-- A write changes no other cell (R52). -/
theorem Memory.get_put_other {a b : Nat} (v : Word) (h : b ≠ a) : ∀ m : Memory, (m.put a v).get b = m.get b
  | [] => by
    unfold Memory.put
    split <;> simp [Memory.get, Ne.symm h]
  | (k, w) :: m => by
    have ih := Memory.get_put_other v h m
    unfold Memory.put
    split_ifs with h1 h2 h3 h4
    · rfl
    · simp [Memory.get, Ne.symm h]
    · simp [Memory.get, show k ≠ b from fun e => h (by omega)]
    · simp [Memory.get, show a ≠ b from Ne.symm h, show k ≠ b from fun e => h (by omega)]
    · simp [Memory.get, ih]

/-- A read after a write to the same address gives the word written (R51, R52). -/
theorem Memory.get_put_same {a : Nat} (v : Word) :
    ∀ {lo : Nat} {m : Memory}, m.wfFrom lo = true → (m.put a v).get a = v
  | _, [], _ => by
    unfold Memory.put
    split <;> simp_all [Memory.get]
  | lo, (k, w) :: m, hm => by
    have hm' := (Memory.wfFrom_cons lo k w m).1 hm
    have low : ∀ {j : Nat}, a < j → Memory.wfFrom j m = true → Memory.get m a = 0 := fun hj h => Memory.get_eq_zero_of_lt h hj
    have ih := Memory.get_put_same (a := a) v hm'.2.2.2
    unfold Memory.put
    split_ifs with h1 h2 h3 h4
    · simp only [Memory.get, show k ≠ a by omega, if_false, h2]
      exact low (by omega) hm'.2.2.2
    · simp [Memory.get]
    · rw [h4]
      exact low (by omega) hm'.2.2.2
    · simp [Memory.get]
    · simp only [Memory.get, show k ≠ a by omega, if_false, ih]

theorem Memory.wfFrom_put {a : Nat} (v : Word) (ha : a < 32768) :
    ∀ {lo : Nat} {m : Memory}, lo ≤ a → m.wfFrom lo = true → (m.put a v).wfFrom lo = true
  | lo, [], hlo, _ => by
    unfold Memory.put
    split
    · rfl
    · simp_all [Memory.wfFrom_cons]
  | lo, (k, w) :: m, hlo, hm => by
    have hm' := (Memory.wfFrom_cons lo k w m).1 hm
    have ih : k + 1 ≤ a → Memory.wfFrom (k + 1) (Memory.put m a v) = true := fun h => Memory.wfFrom_put v ha h hm'.2.2.2
    have tail : Memory.wfFrom lo m = true := Memory.wfFrom_mono (by omega) hm'.2.2.2
    unfold Memory.put
    split_ifs with h1 h2 h3 h4
    · exact hm
    · exact (Memory.wfFrom_cons ..).2 ⟨hlo, ha, h2, (Memory.wfFrom_cons ..).2 ⟨h1, hm'.2⟩⟩
    · exact tail
    · exact (Memory.wfFrom_cons ..).2 ⟨hlo, ha, h4, h3 ▸ hm'.2.2.2⟩
    · exact (Memory.wfFrom_cons ..).2 ⟨hm'.1, hm'.2.1, hm'.2.2.1, ih (by omega)⟩

/-- A write inside memory keeps the canonical form. -/
theorem Memory.wf_put {m : Memory} (h : m.wf = true) {a : Nat} (ha : a < 32768) (v : Word) : (m.put a v).wf = true :=
  Memory.wfFrom_put v ha (Nat.zero_le a) h

/-- Writing consecutive cells inside memory keeps the canonical form. -/
theorem Memory.wf_putWords : ∀ (ws : List Word) {m : Memory} {a : Nat}, m.wf = true → a + ws.length ≤ 32768 →
    (m.putWords a ws).wf = true
  | [], _, _, h, _ => h
  | w :: ws, _, a, h, hl => by
    simp only [List.length_cons] at hl
    exact Memory.wf_putWords ws (Memory.wf_put h (by omega) w) (by omega)

/-- Writing consecutive cells changes no cell below the first. -/
theorem Memory.get_putWords_below : ∀ (ws : List Word) (m : Memory) {a b : Nat}, b < a →
    (m.putWords a ws).get b = m.get b
  | [], _, _, _, _ => rfl
  | w :: ws, m, a, b, h => by
    rw [Memory.putWords, Memory.get_putWords_below ws (m.put a w) (by omega), Memory.get_put_other w (by omega) m]

/-- What every cell reads after writing consecutive cells. -/
theorem Memory.get_putWords : ∀ (ws : List Word) (m : Memory) (a k : Nat), m.wf = true → a + ws.length ≤ 32768 →
    (m.putWords a ws).get k = if a ≤ k ∧ k < a + ws.length then ws.getD (k - a) 0 else m.get k
  | [], m, a, k, _, _ => by simp [Memory.putWords]
  | w :: ws, m, a, k, h, hl => by
    simp only [List.length_cons] at hl
    rw [Memory.putWords, Memory.get_putWords ws _ (a + 1) k (Memory.wf_put h (by omega) w) (by omega)]
    by_cases hk : k = a
    · subst hk
      rw [if_neg (by omega), if_pos (by simp), Memory.get_put_same w (lo := 0) h]
      simp
    · rw [Memory.get_put_other w hk]
      by_cases h1 : a + 1 ≤ k ∧ k < a + 1 + ws.length
      · rw [if_pos h1, if_pos (by simp; omega), show k - a = (k - (a + 1)) + 1 by omega]
        simp
      · rw [if_neg h1, if_neg (by simp; omega)]

/-- Two memories in canonical form that read alike everywhere are equal data. -/
theorem Memory.ext_get : ∀ {lo : Nat} {m m' : Memory}, m.wfFrom lo = true → m'.wfFrom lo = true →
    (∀ a, m.get a = m'.get a) → m = m'
  | _, [], [], _, _, _ => rfl
  | lo, [], (k, w) :: m', _, h', e => by
    have h' := (Memory.wfFrom_cons ..).1 h'
    have := e k
    simp [Memory.get] at this
    exact absurd this.symm h'.2.2.1
  | lo, (k, w) :: m, [], h, _, e => by
    have h := (Memory.wfFrom_cons ..).1 h
    have := e k
    simp [Memory.get] at this
    exact absurd this h.2.2.1
  | lo, (k, w) :: m, (k', w') :: m', h, h', e => by
    have h := (Memory.wfFrom_cons ..).1 h
    have h' := (Memory.wfFrom_cons ..).1 h'
    have hk : k = k' := by
      rcases Nat.lt_trichotomy k k' with hlt | heq | hgt
      · have := e k
        simp only [Memory.get, if_true, show k' ≠ k by omega, if_false] at this
        exact absurd (this.trans (Memory.get_eq_zero_of_lt h'.2.2.2 (by omega))) h.2.2.1
      · exact heq
      · have := e k'
        simp only [Memory.get, if_true, show k ≠ k' by omega, if_false] at this
        exact absurd (this.symm.trans (Memory.get_eq_zero_of_lt h.2.2.2 (by omega))) h'.2.2.1
    subst hk
    have hw : w = w' := by simpa [Memory.get] using e k
    subst hw
    refine congrArg _ (Memory.ext_get h.2.2.2 h'.2.2.2 fun a => ?_)
    by_cases ha : k = a
    · subst ha
      rw [Memory.get_eq_zero_of_lt h.2.2.2 (by omega), Memory.get_eq_zero_of_lt h'.2.2.2 (by omega)]
    · simpa [Memory.get, ha] using e a

end Sys2Proof.Machine
end

