-- ==== Sys2Proof/Laws/State.lean ====
section
/-!
SUPPORT. One lemma per field per update, and the register file's read-after-write laws.
-/
namespace Sys2Proof.Machine

@[simp] theorem State.setReg_x (s : State) (i : Fin 8) (v : Word) : (s.setReg i v).x = s.x.set i v := rfl
@[simp] theorem State.setReg_pc (s : State) (i : Fin 8) (v : Word) : (s.setReg i v).pc = s.pc := rfl
@[simp] theorem State.setReg_stack (s : State) (i : Fin 8) (v : Word) : (s.setReg i v).stack = s.stack := rfl
@[simp] theorem State.setReg_mem (s : State) (i : Fin 8) (v : Word) : (s.setReg i v).mem = s.mem := rfl
@[simp] theorem State.setReg_out (s : State) (i : Fin 8) (v : Word) : (s.setReg i v).out = s.out := rfl
@[simp] theorem State.setReg_run (s : State) (i : Fin 8) (v : Word) : (s.setReg i v).run = s.run := rfl
@[simp] theorem State.setReg_flushes (s : State) (i : Fin 8) (v : Word) : (s.setReg i v).flushes = s.flushes := rfl
@[simp] theorem State.setReg_dones (s : State) (i : Fin 8) (v : Word) : (s.setReg i v).dones = s.dones := rfl

@[simp] theorem State.jump_x (s : State) (t : Word) : (s.jump t).x = s.x := rfl
@[simp] theorem State.jump_pc (s : State) (t : Word) : (s.jump t).pc = t := rfl
@[simp] theorem State.jump_stack (s : State) (t : Word) : (s.jump t).stack = s.stack := rfl
@[simp] theorem State.jump_mem (s : State) (t : Word) : (s.jump t).mem = s.mem := rfl
@[simp] theorem State.jump_out (s : State) (t : Word) : (s.jump t).out = s.out := rfl
@[simp] theorem State.jump_run (s : State) (t : Word) : (s.jump t).run = s.run := rfl
@[simp] theorem State.jump_flushes (s : State) (t : Word) : (s.jump t).flushes = s.flushes := rfl
@[simp] theorem State.jump_dones (s : State) (t : Word) : (s.jump t).dones = s.dones := rfl

@[simp] theorem State.push_x (s : State) (v : Word) : (s.push v).x = s.x := rfl
@[simp] theorem State.push_pc (s : State) (v : Word) : (s.push v).pc = s.pc := rfl
@[simp] theorem State.push_stack (s : State) (v : Word) : (s.push v).stack = s.stack ++ [v] := rfl
@[simp] theorem State.push_mem (s : State) (v : Word) : (s.push v).mem = s.mem := rfl
@[simp] theorem State.push_out (s : State) (v : Word) : (s.push v).out = s.out := rfl
@[simp] theorem State.push_run (s : State) (v : Word) : (s.push v).run = s.run := rfl
@[simp] theorem State.push_flushes (s : State) (v : Word) : (s.push v).flushes = s.flushes := rfl
@[simp] theorem State.push_dones (s : State) (v : Word) : (s.push v).dones = s.dones := rfl

@[simp] theorem State.emit_x (s : State) (b : Byte) : (s.emit b).x = s.x := rfl
@[simp] theorem State.emit_pc (s : State) (b : Byte) : (s.emit b).pc = s.pc := rfl
@[simp] theorem State.emit_stack (s : State) (b : Byte) : (s.emit b).stack = s.stack := rfl
@[simp] theorem State.emit_mem (s : State) (b : Byte) : (s.emit b).mem = s.mem := rfl
@[simp] theorem State.emit_out (s : State) (b : Byte) : (s.emit b).out = s.out ++ [b] := rfl
@[simp] theorem State.emit_run (s : State) (b : Byte) : (s.emit b).run = s.run := rfl
@[simp] theorem State.emit_flushes (s : State) (b : Byte) : (s.emit b).flushes = s.flushes := rfl
@[simp] theorem State.emit_dones (s : State) (b : Byte) : (s.emit b).dones = s.dones := rfl

@[simp] theorem State.writeBack_x (s : State) (d : Fin 8) (v : Word) (n : Nat) : (s.writeBack d v n).x = s.x.set d v := rfl
@[simp] theorem State.writeBack_pc (s : State) (d : Fin 8) (v : Word) (n : Nat) : (s.writeBack d v n).pc = s.npc n := rfl
@[simp] theorem State.writeBack_stack (s : State) (d : Fin 8) (v : Word) (n : Nat) : (s.writeBack d v n).stack = s.stack := rfl
@[simp] theorem State.writeBack_mem (s : State) (d : Fin 8) (v : Word) (n : Nat) : (s.writeBack d v n).mem = s.mem := rfl
@[simp] theorem State.writeBack_out (s : State) (d : Fin 8) (v : Word) (n : Nat) : (s.writeBack d v n).out = s.out := rfl
@[simp] theorem State.writeBack_run (s : State) (d : Fin 8) (v : Word) (n : Nat) : (s.writeBack d v n).run = s.run := rfl
@[simp] theorem State.writeBack_flushes (s : State) (d : Fin 8) (v : Word) (n : Nat) : (s.writeBack d v n).flushes = s.flushes := rfl
@[simp] theorem State.writeBack_dones (s : State) (d : Fin 8) (v : Word) (n : Nat) : (s.writeBack d v n).dones = s.dones := rfl

@[simp] theorem State.terminate_x (s : State) (r : TermRecord) : (s.terminate r).x = s.x := rfl
@[simp] theorem State.terminate_pc (s : State) (r : TermRecord) : (s.terminate r).pc = s.pc := rfl
@[simp] theorem State.terminate_stack (s : State) (r : TermRecord) : (s.terminate r).stack = s.stack := rfl
@[simp] theorem State.terminate_mem (s : State) (r : TermRecord) : (s.terminate r).mem = s.mem := rfl
@[simp] theorem State.terminate_out (s : State) (r : TermRecord) : (s.terminate r).out = s.out := rfl
@[simp] theorem State.terminate_run (s : State) (r : TermRecord) : (s.terminate r).run = .terminated r := rfl
@[simp] theorem State.terminate_flushes (s : State) (r : TermRecord) : (s.terminate r).flushes = s.flushes ++ [s.out] := rfl
@[simp] theorem State.terminate_dones (s : State) (r : TermRecord) : (s.terminate r).dones = s.dones ++ [r] := rfl

@[simp] theorem State.raise_x (s : State) (o : TermOutcome) (op : Word) (info : Option Word) : (s.raise o op info).x = s.x := rfl
@[simp] theorem State.raise_pc (s : State) (o : TermOutcome) (op : Word) (info : Option Word) : (s.raise o op info).pc = s.pc := rfl
@[simp] theorem State.raise_stack (s : State) (o : TermOutcome) (op : Word) (info : Option Word) : (s.raise o op info).stack = s.stack := rfl
@[simp] theorem State.raise_mem (s : State) (o : TermOutcome) (op : Word) (info : Option Word) : (s.raise o op info).mem = s.mem := rfl
@[simp] theorem State.raise_out (s : State) (o : TermOutcome) (op : Word) (info : Option Word) : (s.raise o op info).out = s.out := rfl
@[simp] theorem State.raise_run (s : State) (o : TermOutcome) (op : Word) (info : Option Word) : (s.raise o op info).run = .terminated { outcome := o, atAddr := s.pc, word := some op, info := info } := rfl
@[simp] theorem State.raise_flushes (s : State) (o : TermOutcome) (op : Word) (info : Option Word) : (s.raise o op info).flushes = s.flushes ++ [s.out] := rfl
@[simp] theorem State.raise_dones (s : State) (o : TermOutcome) (op : Word) (info : Option Word) : (s.raise o op info).dones = s.dones ++ [{ outcome := o, atAddr := s.pc, word := some op, info := info }] := rfl

@[simp] theorem State.setReg_memRead (s : State) (i : Fin 8) (v : Word) (a : Nat) : (s.setReg i v).memRead a = s.memRead a := rfl
@[simp] theorem State.jump_reg (s : State) (t : Word) (j : Fin 8) : (s.jump t).reg j = s.reg j := rfl
@[simp] theorem State.jump_memRead (s : State) (t : Word) (a : Nat) : (s.jump t).memRead a = s.memRead a := rfl
@[simp] theorem State.push_reg (s : State) (v : Word) (j : Fin 8) : (s.push v).reg j = s.reg j := rfl
@[simp] theorem State.push_memRead (s : State) (v : Word) (a : Nat) : (s.push v).memRead a = s.memRead a := rfl
@[simp] theorem State.emit_reg (s : State) (b : Byte) (j : Fin 8) : (s.emit b).reg j = s.reg j := rfl
@[simp] theorem State.emit_memRead (s : State) (b : Byte) (a : Nat) : (s.emit b).memRead a = s.memRead a := rfl
@[simp] theorem State.writeBack_memRead (s : State) (d : Fin 8) (v : Word) (n : Nat) (a : Nat) : (s.writeBack d v n).memRead a = s.memRead a := rfl
@[simp] theorem State.terminate_reg (s : State) (r : TermRecord) (j : Fin 8) : (s.terminate r).reg j = s.reg j := rfl
@[simp] theorem State.terminate_memRead (s : State) (r : TermRecord) (a : Nat) : (s.terminate r).memRead a = s.memRead a := rfl
@[simp] theorem State.raise_reg (s : State) (o : TermOutcome) (op : Word) (info : Option Word) (j : Fin 8) : (s.raise o op info).reg j = s.reg j := rfl
@[simp] theorem State.raise_memRead (s : State) (o : TermOutcome) (op : Word) (info : Option Word) (a : Nat) : (s.raise o op info).memRead a = s.memRead a := rfl

theorem State.reg_setReg (s : State) (i : Fin 8) (v : Word) (j : Fin 8) :
    (s.setReg i v).reg j = if j = i then v else s.reg j := by
  simp only [State.reg, State.setReg, Fin.getElem_fin, Vector.getElem_set]
  by_cases h : j = i
  · subst h; simp
  · rw [if_neg h, if_neg fun e : i.val = j.val => h (Fin.ext e.symm)]

@[simp] theorem State.reg_setReg_same (s : State) (i : Fin 8) (v : Word) : (s.setReg i v).reg i = v := by
  simp [State.reg_setReg]

theorem State.reg_setReg_other (s : State) {i j : Fin 8} (v : Word) (h : j ≠ i) : (s.setReg i v).reg j = s.reg j := by
  simp [State.reg_setReg, h]

@[simp] theorem State.reg_writeBack_same (s : State) (d : Fin 8) (v : Word) (n : Nat) :
    (s.writeBack d v n).reg d = v := State.reg_setReg_same s d v

theorem State.reg_writeBack_other (s : State) {d j : Fin 8} (v : Word) (n : Nat) (h : j ≠ d) :
    (s.writeBack d v n).reg j = s.reg j := State.reg_setReg_other s v h

/-- An instruction that lies in memory goes on at `p + 1 + n`, with no wrap (10_state.md R25). -/
theorem State.npc_toNat (s : State) (n : Nat) (h : s.pc.toNat + n < 65535) :
    (s.npc n).toNat = s.pc.toNat + 1 + n := by
  simp only [State.npc, BitVec.toNat_ofNat]; omega

/-- `npc` depends on the pc alone. -/
theorem State.npc_congr {s t : State} (h : t.pc = s.pc) (n : Nat) : t.npc n = s.npc n := by
  simp [State.npc, h]

end Sys2Proof.Machine
end

