-- ==== Sys2Proof/Laws/Ops.lean ====
section
/-!
SUPPORT. One lemma for each shared operation that says everything it can do; provers cite these
instead of unfolding the operation.
-/
namespace Sys2Proof.Machine

/-- Destination resolution, both ways (40_executor.md R94). -/
theorem dst_eq_some {o : Operand} {d : Fin 8} : dst o = some d ↔ o.raw.toNat % 32768 = d.val := by
  unfold dst
  split
  · simp [Fin.ext_iff]
  · simp only [reduceCtorEq, false_iff]; omega

theorem dst_eq_none {o : Operand} : dst o = none ↔ 8 ≤ o.raw.toNat % 32768 := by
  unfold dst
  split
  · simp; omega
  · simp; omega

@[simp] theorem dst_register (i : Fin 8) : dst (.register i) = some i := by
  rw [dst_eq_some, Operand.raw_register_toNat]; omega

@[simp] theorem val_literal (s : State) (v : BitVec 15) : val s (.literal v) = v.setWidth 16 := rfl
@[simp] theorem val_register (s : State) (i : Fin 8) : val s (.register i) = s.reg i := rfl
@[simp] theorem val_malformed (s : State) (w : Word) : val s (.malformed w) = w := rfl

/-- Value resolution reads the register file and nothing else (R93). -/
theorem val_congr {s t : State} (h : t.x = s.x) (o : Operand) : val t o = val s o := by
  cases o <;> simp [State.reg, h]

theorem withDst_some {s : State} {op : Word} {a : Operand} {k : Fin 8 → Result} {d : Fin 8} (h : dst a = some d) :
    withDst s op a k = k d := by simp [withDst, h]

theorem withDst_none {s : State} {op : Word} {a : Operand} {k : Fin 8 → Result} (h : dst a = none) :
    withDst s op a k = .next (s.raise .invalidRegister op (some a.raw)) := by simp [withDst, h]

/-- All that stage (4) can do: end with InvalidRegister, or go on with the register the word names. -/
theorem withDst_cases (s : State) (op : Word) (a : Operand) (k : Fin 8 → Result) :
    (dst a = none ∧ withDst s op a k = .next (s.raise .invalidRegister op (some a.raw))) ∨
      ∃ d, dst a = some d ∧ withDst s op a k = k d := by
  rcases h : dst a with _ | d
  · exact .inl ⟨rfl, withDst_none h⟩
  · exact .inr ⟨d, rfl, withDst_some h⟩

/-- Reading memory inside its range (R51) and outside. -/
theorem State.memRead_eq {s : State} {a : Nat} (h : a < 32768) : s.memRead a = some (s.mem.get a) := by
  simp [State.memRead, Config.memWords, h]

theorem State.memRead_none {s : State} {a : Nat} : s.memRead a = none ↔ 32768 ≤ a := by
  simp [State.memRead, Config.memWords]

theorem State.memRead_some {s : State} {a : Nat} {w : Word} :
    s.memRead a = some w ↔ a < 32768 ∧ s.mem.get a = w := by
  simp [State.memRead, Config.memWords]

theorem State.memRead_congr {s t : State} (h : t.mem = s.mem) (a : Nat) : t.memRead a = s.memRead a := by
  simp [State.memRead, h]

/-- All that a memory write can do (R52). -/
theorem State.memWrite_some {s t : State} {a : Nat} {v : Word} :
    s.memWrite a v = some t ↔ a < 32768 ∧ t = { s with mem := s.mem.put a v } := by
  simp [State.memWrite, Config.memWords, eq_comm]

theorem State.memWrite_none {s : State} {a : Nat} {v : Word} : s.memWrite a v = none ↔ 32768 ≤ a := by
  simp [State.memWrite, Config.memWords]

/-- Every other address reads as before a write. -/
theorem State.memWrite_other {s t : State} {a b : Nat} {v : Word} (h : s.memWrite a v = some t) (hb : b ≠ a) :
    t.memRead b = s.memRead b := by
  obtain ⟨-, rfl⟩ := State.memWrite_some.1 h
  simp [State.memRead, Memory.get_put_other v hb]

/-- The address written reads as the word written. -/
theorem State.memWrite_same {s t : State} {a : Nat} {v : Word} (hw : s.mem.wf = true) (h : s.memWrite a v = some t) :
    t.memRead a = some v := by
  obtain ⟨ha, rfl⟩ := State.memWrite_some.1 h
  rw [State.memRead_eq ha]
  exact congrArg some (Memory.get_put_same v hw)

/-- A write keeps the canonical form. -/
theorem State.memWrite_wf {s t : State} {a : Nat} {v : Word} (hw : s.mem.wf = true) (h : s.memWrite a v = some t) :
    t.mem.wf = true := by
  obtain ⟨ha, rfl⟩ := State.memWrite_some.1 h
  exact Memory.wf_put hw ha v

/-- All that a pop can do (R29). -/
theorem State.pop?_none {s : State} : s.pop? = none ↔ s.stack = [] := by
  unfold State.pop?
  split
  · simp_all
  · rename_i v hv
    simp only [reduceCtorEq, false_iff]
    rintro h
    simp [h] at hv

theorem State.pop?_some {s t : State} {v : Word} :
    s.pop? = some (v, t) ↔ ∃ rest, s.stack = rest ++ [v] ∧ t = { s with stack := rest } := by
  constructor
  · intro h
    unfold State.pop? at h
    split at h
    · cases h
    · rename_i w hw
      cases h
      exact ⟨_, (List.dropLast_append_getLast? _ hw).symm, rfl⟩
  · rintro ⟨rest, h, rfl⟩
    simp [State.pop?, h]

/-- The stack of this hardware is never full (R27). -/
@[simp] theorem State.stackFull_infinite (s : State) : s.stackFull Config.stackCapacity = false := rfl

end Sys2Proof.Machine
end

