-- ==== Sys2Proof/Laws/Exec.lean ====
section
/-!
SUPPORT. What an instruction and a step can do, said once.
-/
namespace Sys2Proof.Machine

/-- Ending a run commits nothing else (60_exceptions.md R207). -/
theorem ended_terminate (s : State) (r : TermRecord) : Ended s (s.terminate r) r :=
  ⟨rfl, fun _ => rfl, rfl, rfl, fun _ => rfl, rfl, rfl, rfl⟩

theorem endsWith_terminate {s : State} {answer : Result} {r : TermRecord} (h : answer = .next (s.terminate r)) :
    EndsWith s answer r := ⟨_, h, ended_terminate s r⟩

/-- Writing back a result is the whole effect of a register-writing instruction. -/
theorem writesRegister_writeBack (s : State) (d : Fin 8) (v : Word) (n : Nat) :
    WritesRegister d v n s (s.writeBack d v n) :=
  ⟨s.reg_writeBack_same d v n, fun _ h => s.reg_writeBack_other v n h,
    ⟨rfl, fun h => s.npc_toNat n (by omega)⟩, rfl, fun _ => rfl, rfl, rfl, rfl, rfl⟩

/-- The opcode word of the instruction at the pc. -/
theorem HoldsAtPc.opcode {i : Instr} {s : State} (h : HoldsAtPc i s) :
    s.pc.toNat < 32768 ∧ s.memRead s.pc.toNat = some i.opcode := by
  have h0 := h.2 0 i.opcode rfl
  exact ⟨(State.memRead_some.1 h0).1, h0⟩

/-- Operand number `k` of the instruction at the pc: its word is in memory, and it is that word's class. -/
theorem HoldsAtPc.operand {i : Instr} {s : State} (h : HoldsAtPc i s) {k : Nat} {o : Operand}
    (ho : i.operands[k]? = some o) : s.memRead (s.pc.toNat + (k + 1)) = some o.raw ∧ Operand.ofWord o.raw = o :=
  ⟨h.2 (k + 1) o.raw (by simp [encode, ho]),
    Operand.ofWord_raw (List.all_eq_true.1 h.1 o (List.mem_of_getElem? ho))⟩

/-- What an instruction can do to a state: end the run with a record that is true of the instruction at
the pc, or one of the seven ways to go on (40_executor.md R97: at most one register, memory, stack and
output change, and the pc). -/
inductive Effect (i : Instr) (s : State) : State → Prop
  | ended (r : TermRecord)
      (isTrue : HoldsAtPc i s → r.trueOf s)
      (possible : r.outcome ≠ .stackOverflow) : Effect i s (s.terminate r)
  | wrote (a : Operand) (d : Fin 8) (v : Word) (n : Nat) (ha : writtenOperand i = some a) (hd : dst a = some d) :
      Effect i s (s.writeBack d v n)
  | popped (a : Operand) (d : Fin 8) (v : Word) (rest : List Word) (hi : i = .pop a) (hd : dst a = some d)
      (hs : s.stack = rest ++ [v]) : Effect i s (State.writeBack { s with stack := rest } d v 1)
  | returned (v : Word) (rest : List Word) (hi : i = .ret) (hs : s.stack = rest ++ [v]) :
      Effect i s (State.jump { s with stack := rest } v)
  | moved (v : Word) : Effect i s (s.jump v)
  | pushed (a : Operand) (v w : Word) (hi : i = .push a ∨ i = .call a) : Effect i s ((s.push v).jump w)
  | stored (a b : Operand) (w : Word) (hi : i = .wmem a b) (ha : wmemAddress a s < 32768) :
      Effect i s (State.jump { s with mem := s.mem.put (wmemAddress a s) (val s b) } w)
  | emitted (a : Operand) (b : Byte) (w : Word) (hi : i = .out a) : Effect i s ((s.emit b).jump w)

/-- A run ended by an instruction other than at its fetch has a true record, if its `info` is true. -/
theorem effect_raise {i : Instr} {s : State} {o : TermOutcome} {info : Option Word} (h1 : o ≠ .pointerExhausted)
    (h2 : o ≠ .invalidOpcode) (h3 : o ≠ .stackOverflow) (h4 : o.raisedBy i.opcode = true)
    (h5 : HoldsAtPc i s →
      TermRecord.infoTrueOf { outcome := o, atAddr := s.pc, word := some i.opcode, info := info } s) :
    Effect i s (s.raise o i.opcode info) := by
  refine .ended _ (fun hi => ?_) h3
  have ⟨hp, hm⟩ := hi.opcode
  simp only [TermRecord.trueOf, hm, hp, h1, h2, false_and, if_false, Option.some.injEq, forall_eq', h4, h5 hi, and_self,
    false_implies, ne_eq, not_false_eq_true, true_implies]

/-- The outcomes that carry no `info`. -/
theorem effect_raise_none {i : Instr} {s : State} {o : TermOutcome}
    (ho : o = .halted ∨ o = .divideByZero ∨ o = .unimplementedInput) (h4 : o.raisedBy i.opcode = true) :
    Effect i s (s.raise o i.opcode none) := by
  rcases ho with rfl | rfl | rfl <;>
    exact effect_raise (by decide) (by decide) (by decide) h4 (fun _ => ⟨nofun, nofun, fun _ _ => rfl⟩)

/-- AddressRange carries the resolved address operand, which is operand number `k`. -/
theorem effect_raise_address {i : Instr} {s : State} {o : Operand} {k : Nat} (ho : i.operands[k]? = some o)
    (h4 : TermOutcome.raisedBy .addressRange i.opcode = true) (hk : (if i.opcode = 15 then 2 else 1) = k + 1)
    (hv : 32768 ≤ (val s o).toNat) : Effect i s (s.raise .addressRange i.opcode (some (val s o))) := by
  refine effect_raise (by decide) (by decide) (by decide) h4 fun hi => ⟨nofun, fun _ => ?_, fun _ h => absurd rfl h⟩
  have ⟨hm, hw⟩ := hi.operand ho
  refine ⟨o.raw, ?_, by rwa [hw], by rw [hw]⟩
  simpa only [Option.some.injEq, hk] using hm

/-- Stage (4) passes an effect through. -/
theorem effect_withDst {i : Instr} {s : State} {a : Operand} {k : Fin 8 → Result}
    (ha : i.operands[0]? = some a) (hr : TermOutcome.raisedBy .invalidRegister i.opcode = true)
    (hk : ∀ d, dst a = some d → ∃ t, k d = .next t ∧ Effect i s t) :
    ∃ t, withDst s i.opcode a k = .next t ∧ Effect i s t := by
  rcases withDst_cases s i.opcode a k with ⟨hd, h⟩ | ⟨d, hd, h⟩
  · refine ⟨_, h, effect_raise (by decide) (by decide) (by decide) hr fun hi => ⟨fun _ => ?_, nofun, fun h' => absurd rfl h'⟩⟩
    have ⟨hm, hw⟩ := hi.operand ha
    exact ⟨a.raw, hm, by rw [hw]; exact hd, rfl⟩
  · rw [h]; exact hk d hd

/-- Every instruction answers a next state, and it is one of its effects. -/
theorem exec_effect (i : Instr) (s : State) : ∃ t, exec i s = .next t ∧ Effect i s t := by
  have writes : ∀ {a : Operand} {d : Fin 8} {v : Word} {n : Nat}, writtenOperand i = some a → dst a = some d →
      ∃ t, (Host.Outcome.next (s.writeBack d v n) : Result) = .next t ∧ Effect i s t :=
    fun ha hd => ⟨_, rfl, .wrote _ _ _ _ ha hd⟩
  cases i with
  | halt => exact ⟨_, rfl, effect_raise_none (by decide) rfl⟩
  | set a b => exact effect_withDst (i := .set a b) rfl rfl fun d hd => writes rfl hd
  | push a => exact ⟨_, rfl, .pushed a _ _ (.inl rfl)⟩
  | pop a =>
    refine effect_withDst (i := .pop a) rfl rfl fun d hd => ?_
    rcases h : s.pop? with _ | ⟨v, t⟩
    · exact ⟨_, rfl, effect_raise_none (i := .pop a) (by decide) rfl⟩
    · obtain ⟨rest, hs, rfl⟩ := State.pop?_some.1 h
      exact ⟨_, rfl, .popped a d v rest rfl hd hs⟩
  | eq a b c => exact effect_withDst (i := .eq a b c) rfl rfl fun d hd => writes rfl hd
  | gt a b c => exact effect_withDst (i := .gt a b c) rfl rfl fun d hd => writes rfl hd
  | jmp a => exact ⟨_, rfl, .moved _⟩
  | jt a b => exact ⟨_, rfl, .moved _⟩
  | jf a b => exact ⟨_, rfl, .moved _⟩
  | add a b c => exact effect_withDst (i := .add a b c) rfl rfl fun d hd => writes rfl hd
  | mult a b c => exact effect_withDst (i := .mult a b c) rfl rfl fun d hd => writes rfl hd
  | mod a b c =>
    refine effect_withDst (i := .mod a b c) rfl rfl fun d hd => ?_
    by_cases h : val s c = 0
    · rw [if_pos h]
      exact ⟨_, rfl, effect_raise_none (i := .mod a b c) (by decide) rfl⟩
    · rw [if_neg h]; exact writes rfl hd
  | and a b c => exact effect_withDst (i := .and a b c) rfl rfl fun d hd => writes rfl hd
  | or a b c => exact effect_withDst (i := .or a b c) rfl rfl fun d hd => writes rfl hd
  | not a b => exact effect_withDst (i := .not a b) rfl rfl fun d hd => writes rfl hd
  | rmem a b =>
    refine effect_withDst (i := .rmem a b) rfl rfl fun d hd => ?_
    rcases h : s.memRead (val s b).toNat with _ | v
    · exact ⟨_, rfl, effect_raise_address (i := .rmem a b) (k := 1) rfl rfl rfl (State.memRead_none.1 h)⟩
    · exact writes rfl hd
  | wmem a b =>
    change ∃ t, execWmem a b s = .next t ∧ _
    unfold execWmem
    rcases h : s.memWrite (wmemAddress a s) (val s b) with _ | t
    · exact ⟨_, rfl, effect_raise_address (i := .wmem a b) (k := 0) rfl rfl rfl (State.memWrite_none.1 h)⟩
    · obtain ⟨ha, rfl⟩ := State.memWrite_some.1 h
      exact ⟨_, rfl, .stored a b _ rfl ha⟩
  | call a => exact ⟨_, rfl, .pushed a _ _ (.inr rfl)⟩
  | ret =>
    change ∃ t, execRet s = .next t ∧ _
    unfold execRet
    rcases h : s.pop? with _ | ⟨v, t⟩
    · exact ⟨_, rfl, effect_raise_none (i := .ret) (by decide) rfl⟩
    · obtain ⟨rest, hs, rfl⟩ := State.pop?_some.1 h
      exact ⟨_, rfl, .returned v rest rfl hs⟩
  | out a => exact ⟨_, rfl, .emitted a _ _ rfl⟩
  | inp a => exact ⟨_, rfl, effect_raise_none (i := .inp a) (by decide) rfl⟩
  | noop => exact ⟨_, rfl, .moved _⟩

/-- The inversion lemma of `exec`: if it answers a next state, that is one of the instruction's effects. -/
theorem effect_of_exec {i : Instr} {s t : State} (h : exec i s = .next t) : Effect i s t := by
  obtain ⟨u, h', e⟩ := exec_effect i s
  rw [h] at h'
  cases h'
  exact e

/-- All that a step can do (R91): a terminated machine faults, and a running one ends by what `fetch`
reports or does what the instruction does. -/
theorem step_terminated {s : State} {r : TermRecord} (h : s.run = .terminated r) : step s = .fault .runEnded := by
  simp [step, h]

theorem step_fetch_error {s : State} {r : TermRecord} (h : s.run = .running) (hf : fetch s = .error r) :
    step s = .next (s.terminate r) := by simp [step, h, hf]

theorem step_fetch_ok {s : State} {i : Instr} (h : s.run = .running) (hf : fetch s = .ok i) : step s = exec i s := by
  simp [step, h, hf]

/-- The words at an address that lies in memory begin with the cell there (20_memory.md R51, R57). -/
theorem State.wordsFrom_succ {s : State} {a : Nat} {w : Word} (h : s.memRead a = some w) (n : Nat) :
    s.wordsFrom a (n + 1) = w :: s.wordsFrom (a + 1) n := by simp [State.wordsFrom, h]

theorem State.wordsFrom_end {s : State} {a : Nat} (h : 32768 ≤ a) : ∀ n : Nat, s.wordsFrom a n = []
  | 0 => rfl
  | n + 1 => by simp [State.wordsFrom, State.memRead_none.2 h]

theorem State.wordsFrom_length (s : State) : ∀ n a : Nat, (s.wordsFrom a n).length = min n (32768 - a)
  | 0, a => by simp [State.wordsFrom]
  | n + 1, a => by
    by_cases h : a < 32768
    · rw [State.wordsFrom_succ (State.memRead_eq h), List.length_cons, State.wordsFrom_length s n (a + 1)]
      omega
    · rw [State.wordsFrom_end (by omega)]
      simp only [List.length_nil]
      omega

/-- Every fetched word is the cell it was fetched from. -/
theorem State.wordsFrom_get (s : State) : ∀ (n a k : Nat) (w : Word), (s.wordsFrom a n)[k]? = some w →
    s.memRead (a + k) = some w
  | 0, a, k, w, h => by simp [State.wordsFrom] at h
  | n + 1, a, k, w, h => by
    rcases hm : s.memRead a with _ | v
    · simp [State.wordsFrom, hm] at h
    · rw [State.wordsFrom_succ hm] at h
      cases k with
      | zero => simpa [hm] using h
      | succ k =>
        rw [List.getElem?_cons_succ] at h
        rw [show a + (k + 1) = a + 1 + k by omega]
        exact State.wordsFrom_get s n (a + 1) k w h

/-- A property that every step keeps holds at the end of every run. -/
theorem run_invariant (M : Host.Core) {P : M.State → Prop} (hstep : ∀ s t, P s → M.step s = .next t → P t) :
    ∀ (k : Nat) (s t : M.State), P s → M.run k s = .next t → P t
  | 0, _, _, hp, h => by cases h; exact hp
  | k + 1, s, t, hp, h => by
    unfold Host.Core.run at h
    split at h
    · rename_i s' hs
      exact run_invariant M hstep k s' t (hstep s s' hp hs) h
    · cases h
    · cases h

end Sys2Proof.Machine
end

