-- ==== Sys2Proof/Laws/PerInstr.lean ====
section
/-!
SUPPORT. Statements made for each instruction as syntax, one lemma per constructor.
-/
namespace Sys2Proof.Laws

/-- The encoding of an instruction begins with its opcode word and has as many operand words after it
as the ARITY list of 30_encoding.md R77 gives that opcode word; the list and the encoder are two
separate transcriptions of R74. -/
def EncodeLength.Statement (i : Instr) : Prop :=
  (encode i).head? = some i.opcode ∧ arity i.opcode = some ((encode i).length - 1) ∧ (encode i).length ≤ 4

theorem EncodeLength.halt : EncodeLength.Statement .halt := ⟨rfl, rfl, by decide⟩
theorem EncodeLength.set (a b : Operand) : EncodeLength.Statement (.set a b) := ⟨rfl, rfl, by simp [encode, Instr.operands]⟩
theorem EncodeLength.push (a : Operand) : EncodeLength.Statement (.push a) := ⟨rfl, rfl, by simp [encode, Instr.operands]⟩
theorem EncodeLength.pop (a : Operand) : EncodeLength.Statement (.pop a) := ⟨rfl, rfl, by simp [encode, Instr.operands]⟩
theorem EncodeLength.eq (a b c : Operand) : EncodeLength.Statement (.eq a b c) := ⟨rfl, rfl, by simp [encode, Instr.operands]⟩
theorem EncodeLength.gt (a b c : Operand) : EncodeLength.Statement (.gt a b c) := ⟨rfl, rfl, by simp [encode, Instr.operands]⟩
theorem EncodeLength.jmp (a : Operand) : EncodeLength.Statement (.jmp a) := ⟨rfl, rfl, by simp [encode, Instr.operands]⟩
theorem EncodeLength.jt (a b : Operand) : EncodeLength.Statement (.jt a b) := ⟨rfl, rfl, by simp [encode, Instr.operands]⟩
theorem EncodeLength.jf (a b : Operand) : EncodeLength.Statement (.jf a b) := ⟨rfl, rfl, by simp [encode, Instr.operands]⟩
theorem EncodeLength.add (a b c : Operand) : EncodeLength.Statement (.add a b c) := ⟨rfl, rfl, by simp [encode, Instr.operands]⟩
theorem EncodeLength.mult (a b c : Operand) : EncodeLength.Statement (.mult a b c) := ⟨rfl, rfl, by simp [encode, Instr.operands]⟩
theorem EncodeLength.mod (a b c : Operand) : EncodeLength.Statement (.mod a b c) := ⟨rfl, rfl, by simp [encode, Instr.operands]⟩
theorem EncodeLength.and (a b c : Operand) : EncodeLength.Statement (.and a b c) := ⟨rfl, rfl, by simp [encode, Instr.operands]⟩
theorem EncodeLength.or (a b c : Operand) : EncodeLength.Statement (.or a b c) := ⟨rfl, rfl, by simp [encode, Instr.operands]⟩
theorem EncodeLength.not (a b : Operand) : EncodeLength.Statement (.not a b) := ⟨rfl, rfl, by simp [encode, Instr.operands]⟩
theorem EncodeLength.rmem (a b : Operand) : EncodeLength.Statement (.rmem a b) := ⟨rfl, rfl, by simp [encode, Instr.operands]⟩
theorem EncodeLength.wmem (a b : Operand) : EncodeLength.Statement (.wmem a b) := ⟨rfl, rfl, by simp [encode, Instr.operands]⟩
theorem EncodeLength.call (a : Operand) : EncodeLength.Statement (.call a) := ⟨rfl, rfl, by simp [encode, Instr.operands]⟩
theorem EncodeLength.ret : EncodeLength.Statement .ret := ⟨rfl, rfl, by decide⟩
theorem EncodeLength.out (a : Operand) : EncodeLength.Statement (.out a) := ⟨rfl, rfl, by simp [encode, Instr.operands]⟩
theorem EncodeLength.inp (a : Operand) : EncodeLength.Statement (.inp a) := ⟨rfl, rfl, by simp [encode, Instr.operands]⟩
theorem EncodeLength.noop : EncodeLength.Statement .noop := ⟨rfl, rfl, by decide⟩

end Sys2Proof.Laws
end

