-- ==== Sys2Proof/Tests/Slice0.lean ====
section
/-!
SUPPORT. The model's own tests: the WellFormed smoke tests, one decoding for each constructor from a
word written out from 30_encoding.md R71, R72, R74, at most two steps for each instruction with the
expected values of the spec's vectors (95_test_vectors.md, V numbers in the comments), and a witness for
each statement with hypotheses.
-/
namespace Sys2Proof.Tests

open Sys2Proof Sys2Proof.Machine

/-! ## Well-formedness -/

theorem test_wf_refuses_literal_word_as_malformed : (Instr.push (.malformed 32767)).wf = false := by decide
theorem test_wf_refuses_register_word_as_malformed : (Instr.add (.register 0) (.malformed 32775) (.literal 0)).wf = false := by decide
theorem test_wf_refuses_bad_third_operand : (Instr.mod (.register 0) (.literal 0) (.malformed 0)).wf = false := by decide
theorem test_wf_accepts_malformed_word : (Instr.push (.malformed 32776)).wf = true := by decide

/-! ## Decoding: words from the tables of R71, R72 and R74 -/

theorem test_decode_halt : decode [0b0000000000000000] = .ok (.halt, []) := by decide
theorem test_decode_set : decode [0b0000000000000001, 0b1000000000000001, 0b0000010011010010] = .ok (.set (.register 1) (.literal 1234), []) := by decide
theorem test_decode_push : decode [0b0000000000000010, 0b0000000000101010] = .ok (.push (.literal 42), []) := by decide
theorem test_decode_pop : decode [0b0000000000000011, 0b1000000000000000] = .ok (.pop (.register 0), []) := by decide
theorem test_decode_eq : decode [0b0000000000000100, 0b1000000000000000, 0b1000000000000001, 0b0000000000000100] = .ok (.eq (.register 0) (.register 1) (.literal 4), []) := by decide
theorem test_decode_gt : decode [0b0000000000000101, 0b1000000000000010, 0b0000000000001010, 0b0000000000000011] = .ok (.gt (.register 2) (.literal 10) (.literal 3), []) := by decide
theorem test_decode_jmp : decode [0b0000000000000110, 0b0000000000000101] = .ok (.jmp (.literal 5), []) := by decide
theorem test_decode_jt : decode [0b0000000000000111, 0b1000000000000000, 0b0000000001100100] = .ok (.jt (.register 0) (.literal 100), []) := by decide
theorem test_decode_jf : decode [0b0000000000001000, 0b0000000000000000, 0b0000000011001000] = .ok (.jf (.literal 0) (.literal 200), []) := by decide
theorem test_decode_add : decode [0b0000000000001001, 0b1000000000000000, 0b1000000000000001, 0b0000000000000100] = .ok (.add (.register 0) (.register 1) (.literal 4), []) := by decide
theorem test_decode_mult : decode [0b0000000000001010, 0b1000000000000000, 0b0000000011001000, 0b1000000000000110] = .ok (.mult (.register 0) (.literal 200) (.register 6), []) := by decide
theorem test_decode_mod : decode [0b0000000000001011, 0b1000000000000000, 0b0000000000010001, 0b0000000000000101] = .ok (.mod (.register 0) (.literal 17) (.literal 5), []) := by decide
theorem test_decode_and : decode [0b0000000000001100, 0b1000000000000000, 0b0000000000001100, 0b0000000000001010] = .ok (.and (.register 0) (.literal 12) (.literal 10), []) := by decide
theorem test_decode_or : decode [0b0000000000001101, 0b1000000000000000, 0b0000000000001100, 0b0000000000001010] = .ok (.or (.register 0) (.literal 12) (.literal 10), []) := by decide
theorem test_decode_not : decode [0b0000000000001110, 0b1000000000000000, 0b0111111111111111] = .ok (.not (.register 0) (.literal 32767), []) := by decide
theorem test_decode_rmem : decode [0b0000000000001111, 0b1000000000000000, 0b1000000000000001] = .ok (.rmem (.register 0) (.register 1), []) := by decide
theorem test_decode_wmem : decode [0b0000000000010000, 0b1000000000000000, 0b0000000001000001] = .ok (.wmem (.register 0) (.literal 65), []) := by decide
theorem test_decode_call : decode [0b0000000000010001, 0b0000000111110100] = .ok (.call (.literal 500), []) := by decide
theorem test_decode_ret : decode [0b0000000000010010] = .ok (.ret, []) := by decide
theorem test_decode_out : decode [0b0000000000010011, 0b1000000000000000] = .ok (.out (.register 0), []) := by decide
theorem test_decode_in : decode [0b0000000000010100, 0b1000000000000000] = .ok (.inp (.register 0), []) := by decide
theorem test_decode_noop : decode [0b0000000000010101] = .ok (.noop, []) := by decide
theorem test_decode_refuses_22 : decode [0b0000000000010110] = .error (.invalidOpcode 22) := by decide
theorem test_decode_refuses_high_bits : decode [0b0000000000100000] = .error (.invalidOpcode 32) := by decide
theorem test_decode_malformed_boundary : decode [0b0000000000010011, 0b1000000000001000] = .ok (.out (.malformed 32776), []) := by decide
theorem test_table_word_add : decodeTableWord 16 9 = some (.add (.literal 0) (.literal 0) (.literal 0)) := by decide
theorem test_table_word_second_word : decodeTableWord 32 0x8007000f = some (.rmem (.register 7) (.literal 0)) := by decide

/-! ## Steps: the spec's vectors -/

/-- The machine right after `Reset` with the given image. -/
def start (image : List Word) : State := State.resetWith image

/-- What one step leaves, seen through `f`; nothing if the step answers no next state. -/
def after {α : Type} (s : State) (f : State → α) : Option α :=
  match step s with
  | .next t => some (f t)
  | _ => none

/-- A machine whose only words in memory are `ws`, at the pc `p`. -/
def placed (p : Nat) (ws : List Word) : State :=
  { State.reset with pc := BitVec.ofNat 16 p, mem := Memory.putWords [] p ws }

/-- The record a step ends with. -/
def endRecord (s : State) : Option TermRecord :=
  match step s with
  | .next t => match t.run with | .terminated r => some r | .running => none
  | _ => none

-- V5, V7
theorem test_set_malformed_value : after (start [1, 32768, 40000]) (fun t => (t.reg 0, t.pc)) = some (40000, 3) := by decide
theorem test_set_bad_destination : endRecord (start [1, 8, 5]) = some { outcome := .invalidRegister, atAddr := 0, word := some 1, info := some 8 } := by decide
-- V10, V11
theorem test_push_on_top : after { start [2, 42] with stack := [1] } (fun t => (t.stack, t.pc)) = some ([1, 42], 2) := by decide
theorem test_push_register_contents : after ((start [2, 32770]).setReg 2 9) (·.stack) = some [9] := by decide
-- V12, V14
theorem test_pop_top : after { start [3, 32768] with stack := [5, 9] } (fun t => (t.reg 0, t.stack, t.pc)) = some (9, [5], 2) := by decide
theorem test_pop_destination_first : endRecord (start [3, 100]) = some { outcome := .invalidRegister, atAddr := 0, word := some 3, info := some 100 } := by decide
-- V22, V23
theorem test_eq_same_register : after ((start [4, 32768, 32768, 32768]).setReg 0 17) (fun t => (t.reg 0, t.pc)) = some (1, 4) := by decide
theorem test_eq_all_sixteen_bits : after ((start [4, 32768, 32769, 0]).setReg 1 32768) (·.reg 0) = some 0 := by decide
-- V25, V28
theorem test_gt_strict : after ((start [5, 32770, 3, 3]).setReg 2 7) (fun t => (t.reg 2, t.pc)) = some (0, 4) := by decide
theorem test_gt_unsigned : after ((start [5, 32768, 32769, 32767]).setReg 1 32768) (·.reg 0) = some 1 := by decide
-- V30, V32
theorem test_jmp_literal : after (start [6, 100]) (·.pc) = some 100 := by decide
theorem test_jmp_out_of_range : after ((start [6, 32771]).setReg 3 40000) (fun t => (t.pc, t.run)) = some (40000, .running) := by decide
-- V35, V36
theorem test_jt_not_taken : after (start [7, 32768, 100]) (·.pc) = some 3 := by decide
theorem test_jt_taken_on_bit_15 : after ((start [7, 32768, 100]).setReg 0 32768) (·.pc) = some 100 := by decide
-- V37, V39
theorem test_jf_taken : after (start [8, 0, 200]) (·.pc) = some 200 := by decide
theorem test_jf_at_the_end : endRecord (placed 32766 [8, 1]) = some { outcome := .pointerExhausted, atAddr := 32768, word := some 8 } := by decide
-- V53, V55
theorem test_add_doubles : after ((start [9, 32768, 32768, 32768]).setReg 0 20000) (fun t => (t.reg 0, t.pc)) = some (7232, 4) := by decide
theorem test_add_seventeen_bits : after ((start [9, 32768, 32769, 32769]).setReg 1 65535) (·.reg 0) = some 32766 := by decide
-- V58, V61
theorem test_mult_thirty_bits : after (start [10, 32768, 32767, 32767]) (fun t => (t.reg 0, t.pc)) = some (1, 4) := by decide
theorem test_mult_thirty_two_bits : after ((start [10, 32768, 32769, 32769]).setReg 1 65535) (·.reg 0) = some 1 := by decide
-- V69, V71
theorem test_mod_not_reduced : after (((start [11, 32768, 32769, 32770]).setReg 1 65534).setReg 2 65535) (·.reg 0) = some 65534 := by decide
theorem test_mod_destination_before_zero : endRecord (start [11, 9, 5, 0]) = some { outcome := .invalidRegister, atAddr := 0, word := some 11, info := some 9 } := by decide
-- V72, V75
theorem test_and : after (start [12, 32768, 12, 10]) (fun t => (t.reg 0, t.pc)) = some (8, 4) := by decide
theorem test_and_keeps_bit_15 : after (((start [12, 32768, 32769, 32770]).setReg 1 49152).setReg 2 40960) (·.reg 0) = some 32768 := by decide
-- V77, V79
theorem test_or : after (start [13, 32768, 12, 10]) (fun t => (t.reg 0, t.pc)) = some (14, 4) := by decide
theorem test_or_keeps_bit_15 : after ((start [13, 32768, 32769, 1]).setReg 1 32768) (·.reg 0) = some 32769 := by decide
-- V81, V83
theorem test_not_32767 : after (start [14, 32768, 32767]) (fun t => (t.reg 0, t.pc)) = some (0, 3) := by decide
theorem test_not_clears_bit_15 : after ((start [14, 32768, 32769]).setReg 1 40000) (·.reg 0) = some 25535 := by decide
-- V92, V97
theorem test_rmem_own_register : after ({ start [15, 32768, 32768] with mem := (start [15, 32768, 32768]).mem.put 100 77 }.setReg 0 100) (fun t => (t.reg 0, t.pc)) = some (77, 3) := by decide
theorem test_rmem_out_of_range : endRecord ((start [15, 32768, 32769]).setReg 1 32768) = some { outcome := .addressRange, atAddr := 0, word := some 15, info := some 32768 } := by decide
-- V99, V102
theorem test_wmem_register_address : after ((start [16, 32768, 65]).setReg 0 300) (fun t => (t.memRead 300, t.pc)) = some (some 65, 3) := by decide
theorem test_wmem_zero_unlists : after (start [16, 2, 0]) (·.mem) = some [(0, 16), (1, 2)] := by decide
-- V111, V112
theorem test_call_register_target : after ({ start [17, 32769] with stack := [1] }.setReg 1 600) (fun t => (t.stack, t.pc)) = some ([1, 2], 600) := by decide
theorem test_call_at_the_end : after (placed 32766 [17, 5]) (fun t => (t.stack, t.pc)) = some ([32768], 5) := by decide
-- V115, V116
theorem test_ret : after { start [18] with stack := [7, 12] } (fun t => (t.stack, t.pc)) = some ([7], 12) := by decide
theorem test_ret_empty_stack : endRecord (placed 9 [18]) = some { outcome := .halted, atAddr := 9, word := some 18 } := by decide
-- V122, V124
theorem test_out_low_byte : after { start [19, 321] with out := [1] } (fun t => (t.out, t.pc)) = some ([1, 65], 2) := by decide
theorem test_out_delivers_nothing : after ((start [19, 32768]).setReg 0 65535) (fun t => (t.out, t.flushes)) = some ([255], []) := by decide
-- V126, V127
theorem test_in_without_operand : endRecord (placed 32767 [20]) = some { outcome := .unimplementedInput, atAddr := 32767, word := some 20 } := by decide
theorem test_in_bad_destination : endRecord (start [20, 9]) = some { outcome := .unimplementedInput, atAddr := 0, word := some 20 } := by decide
-- V120, M5
theorem test_halt_keeps_pc : after (placed 4 [0]) (fun t => (t.pc, t.run)) = some (4, .terminated { outcome := .halted, atAddr := 4, word := some 0 }) := by decide
theorem test_fault_flushes_output : after { placed 2 [22] with out := [72] } (fun t => (t.flushes, t.dones.length)) = some ([[72]], 1) := by decide
-- V129
theorem test_noop_leaves_memory : after (placed 32767 [21]) (fun t => (t.pc, t.run)) = some (32768, .running) := by decide
-- V141, V142, V145
theorem test_invalid_opcode_neighbours : endRecord { placed 5 [32768, 1, 2] with mem := [(4, 9), (5, 32768), (6, 1), (7, 2)] } = some { outcome := .invalidOpcode, atAddr := 5, word := some 32768, prev := some 9, next := some 1 } := by decide
theorem test_invalid_opcode_no_next : endRecord { placed 32767 [65535] with mem := [(32766, 3), (32767, 65535)] } = some { outcome := .invalidOpcode, atAddr := 32767, word := some 65535, prev := some 3 } := by decide
theorem test_pc_outside_memory : endRecord (placed 65535 []) = some { outcome := .pointerExhausted, atAddr := 65535 } := by decide
theorem test_terminated_takes_no_step : after { start [21] with run := .terminated { outcome := .halted, atAddr := 0 } } (·.pc) = none := by decide
-- IMG1, IMG3 of 95_test_vectors.md
theorem test_image_scenario_a : imageOfBytes [0x09, 0x00, 0x00, 0x80, 0x01, 0x80, 0x04, 0x00] = [9, 32768, 32769, 4] := by decide
theorem test_image_odd_byte_dropped : imageOfBytes [0x13, 0x00, 0x41, 0x00, 0x00] = [19, 65] := by decide
-- program P3's listing and image
theorem test_assemble_p3 : assemble [.label 0, .instr 19 [.dec 65], .instr 16 [.dec 1, .dec 66], .instr 16 [.dec 2, .dec 0], .instr 6 [.label 0]] = some [19, 65, 16, 1, 66, 16, 2, 0, 6, 0] := by decide
theorem test_text_scenario_a : instrText (.add (.register 0) (.register 1) (.literal 4)) = some "add r0 r1 4" := by decide
theorem test_text_malformed_has_none : instrText (.push (.malformed 40000)) = none := by decide
theorem test_with_fetch_word : (State.reset.withFetchWord 32 0x00640006).fetchWords = [6, 100, 0, 0] := by decide
theorem test_with_fetch_word_runs_next : after ({ State.reset with pc := 32766 }.withFetchWord 32 0x00640006) (·.pc) = some 100 := by decide

/-! ## Witnesses: for each statement with hypotheses, states and operands that meet those of each clause,
at a boundary of their range -/

/-- The hypotheses of `OperandsPastEndExhaust op n`, met where the last operand word would lie at 32768. -/
abbrev PastEndMet (op : Word) (n : Nat) : Prop :=
  (placed (32768 - n) [op]).run = .running ∧
    (placed (32768 - n) [op]).memRead (placed (32768 - n) [op]).pc.toNat = some op ∧
    32768 ≤ (placed (32768 - n) [op]).pc.toNat + n

/-- Destination words that name a register and that do not, at the boundaries of R94. -/
abbrev DestinationsMet : Prop :=
  dst (.register 0) = some 0 ∧ dst (.register 7) = some 7 ∧ dst (.literal 7) = some 7 ∧ dst (.literal 8) = none ∧
    dst (.malformed 32776) = none ∧ dst (.malformed 65535) = none

theorem witness_SetCopiesItsValue : DestinationsMet ∧ PastEndMet 1 2 := by decide
theorem witness_PushAppendsTheResolvedValue : PastEndMet 2 1 := by decide
theorem witness_PopDeliversTheTopOrHalts :
    DestinationsMet ∧ ({ State.reset with stack := [9] } : State).stack = [] ++ [9] ∧ State.reset.stack = [] ∧ PastEndMet 3 1 := by decide
theorem witness_EqWritesOneOrZero : DestinationsMet ∧ PastEndMet 4 3 := by decide
theorem witness_GtComparesUnsignedAndStrictly : DestinationsMet ∧ PastEndMet 5 3 := by decide
theorem witness_JmpWritesItsTargetToPc :
    State.reset.run = .running ∧ 32768 ≤ (val (State.reset.setReg 3 32768) (.register 3)).toNat ∧ PastEndMet 6 1 := by decide
theorem witness_JtJumpsWhenNonZero :
    val (State.reset.setReg 0 32768) (.register 0) ≠ 0 ∧ val State.reset (.literal 0) = 0 ∧ PastEndMet 7 2 := by decide
theorem witness_JfJumpsWhenZero :
    val State.reset (.register 0) = 0 ∧ val State.reset (.malformed 65535) ≠ 0 ∧ PastEndMet 8 2 := by decide
theorem witness_AddIsTheExactSumModulo32768 : DestinationsMet ∧ PastEndMet 9 3 := by decide
theorem witness_MultIsTheExactProductModulo32768 : DestinationsMet ∧ PastEndMet 10 3 := by decide
theorem witness_ModIsTheUnsignedRemainderOrFaults :
    DestinationsMet ∧ val State.reset (.literal 1) ≠ 0 ∧ val State.reset (.register 1) = 0 ∧ PastEndMet 11 3 := by decide
theorem witness_AndIsBitwiseOnSixteenBits : DestinationsMet ∧ PastEndMet 12 3 := by decide
theorem witness_OrIsBitwiseOnSixteenBits : DestinationsMet ∧ PastEndMet 13 3 := by decide
theorem witness_NotComplementsThenReduces : DestinationsMet ∧ PastEndMet 14 2 := by decide
theorem witness_ResultsStayInRange :
    dst (.register 0) = some 0 ∧ (val State.reset (.literal 32767)).toNat < 32768 ∧ val State.reset (.literal 32767) ≠ 0 ∧
      exec (.add (.register 0) (.literal 1) (.literal 1)) State.reset = .next (State.reset.writeBack 0 2 3) ∧
      exec (.gt (.register 0) (.literal 1) (.literal 1)) State.reset = .next (State.reset.writeBack 0 0 3) ∧
      exec (.mod (.register 0) (.literal 32767) (.literal 32767)) State.reset = .next (State.reset.writeBack 0 0 3) :=
  ⟨by decide, by decide, by decide, rfl, rfl, rfl⟩
theorem witness_RmemLoadsTheRawCell :
    DestinationsMet ∧ (placed 32767 [9]).memRead (val State.reset (.literal 32767)).toNat = some 9 ∧
      32768 ≤ (val State.reset (.malformed 32776)).toNat ∧ PastEndMet 15 2 := by decide
theorem witness_WmemStoresAtTheResolvedAddress :
    State.reset.mem.wf = true ∧ wmemAddress (.literal 32767) State.reset < 32768 ∧
      32768 ≤ wmemAddress (.register 0) (State.reset.setReg 0 32768) ∧ PastEndMet 16 2 := by decide
theorem witness_OnlyWmemChangesMemory :
    exec .noop State.reset = .next (State.reset.jump 1) ∧
      exec (.wmem (.literal 100) (.literal 7)) State.reset = .next (State.jump { State.reset with mem := [(100, 7)] } 3) :=
  ⟨rfl, rfl⟩
theorem witness_StoreIsSeenByTheNextFetch :
    (placed 32764 [16, 32767, 21]).mem.wf = true ∧ (placed 32764 [16, 32767, 21]).run = .running ∧
      (placed 32764 [16, 32767, 21]).pc.toNat + 3 < 32768 ∧
      wmemAddress (.literal 32767) (placed 32764 [16, 32767, 21]) = (placed 32764 [16, 32767, 21]).pc.toNat + 3 ∧
      val State.reset (.literal 21) = 21 ∧ val State.reset (.literal 0) = 0 ∧ 21 < (val State.reset (.literal 22)).toNat ∧
      val State.reset (.literal 20) = 20 ∧ arity (val State.reset (.literal 19)) = some 1 ∧
      32768 ≤ (placed 32764 [16, 32767, 19]).pc.toNat + 3 + 1 ∧ (placed 32763 [16, 32766, 19]).pc.toNat + 3 + 1 < 32768 ∧
      wmemAddress (.literal 32766) (placed 32763 [16, 32766, 19]) = (placed 32763 [16, 32766, 19]).pc.toNat + 3 := by decide
theorem witness_CallPushesTheReturnAddress : (placed 32766 [17, 5]).pc.toNat + 1 < 32768 ∧ PastEndMet 17 1 := by decide
theorem witness_RetJumpsToTheTopOrHalts :
    ({ State.reset with stack := [32768] } : State).stack = [] ++ [32768] ∧ 32768 ≤ (32768 : Word).toNat ∧
      State.reset.stack = [] ∧ (start [18]).run = .running ∧ (start [18]).memRead (start [18]).pc.toNat = some 18 := by decide
theorem witness_PushThenPopRoundTrips : dst (.register 7) = some 7 := by decide
theorem witness_OnlyStackInstructionsMoveTheStack :
    exec (.push (.literal 5)) State.reset = .next (State.jump { State.reset with stack := [5] } 2) := rfl
theorem witness_OnlyAFiniteStackOverflows :
    State.reset.depth = 0 ∧ State.reset.depth ≠ 1 ∧ State.reset.run = .running ∧
      step State.reset = .next (State.reset.terminate { outcome := .halted, atAddr := 0, word := some 0 }) :=
  ⟨by decide, by decide, rfl, rfl⟩
theorem witness_HaltEndsTheRun :
    State.reset.run = .running ∧ State.reset.memRead State.reset.pc.toNat = some 0 ∧ ([1] : List Word).length ≤ 1 := by decide
theorem witness_OutAppendsTheLowByte : PastEndMet 19 1 := by decide
theorem witness_InAlwaysFaults :
    (placed 32767 [20]).run = .running ∧ (placed 32767 [20]).memRead (placed 32767 [20]).pc.toNat = some 20 := by decide
theorem witness_NoopOnlyAdvances :
    (placed 32767 [21]).run = .running ∧ (placed 32767 [21]).pc = 32767 ∧
      (placed 32767 [21]).memRead (placed 32767 [21]).pc.toNat = some 21 := by decide
theorem witness_ValueResolutionByWordClass : (32767 : Word).toNat ≤ 32767 ∧ 32776 ≤ (32776 : Word).toNat := by decide
theorem witness_DestinationIsTheWordModulo32768 :
    (32775 : Word).toNat % 32768 = (7 : Fin 8).val ∧ (7 : Word).toNat % 32768 = (7 : Fin 8).val ∧
      8 ≤ (8 : Word).toNat % 32768 ∧ 8 ≤ (32776 : Word).toNat % 32768 := by decide
theorem witness_RegistersAreTouchedOnlyByOperands :
    (exec (.set (.register 1) (.literal 5)) State.reset = .next (State.reset.writeBack 1 5 2) ∧
      (State.reset.writeBack 1 5 2).reg 1 ≠ State.reset.reg 1) ∧
    ∀ o ∈ valueOperands (.set (.register 1) (.register 2)), val (State.reset.setReg 3 9) o = val State.reset o :=
  ⟨⟨rfl, by decide⟩, by decide⟩
theorem witness_StepRunsTheDecodedInstruction :
    (placed 32767 [21]).run = .running ∧ decode (placed 32767 [21]).fetchWords = .ok (.noop, []) ∧
      (Instr.jmp (.literal 100)).wf = true ∧ encode (.jmp (.literal 100)) = [6, 100] ∧
      (start [6, 100]).memRead 0 = some 6 ∧ (start [6, 100]).memRead 1 = some 100 := by decide
theorem witness_FetchStagesInOrder :
    (placed 32768 []).run = .running ∧ 32768 ≤ (placed 32768 []).pc.toNat ∧
      (start [22]).memRead 0 = some 22 ∧ 21 < (22 : Word).toNat ∧ (start [20]).memRead 0 = some 20 ∧
      (placed 32765 [4]).memRead 32765 = some 4 ∧ arity 4 = some 3 ∧ 32768 ≤ (placed 32765 [4]).pc.toNat + 3 ∧
      (placed 32764 [9]).memRead 32764 = some 9 ∧ arity 9 = some 3 ∧ (placed 32764 [9]).pc.toNat + 3 < 32768 := by decide
theorem witness_OpcodesAbove21AreInvalid :
    (placed 32767 [22]).run = .running ∧ (placed 32767 [22]).memRead (placed 32767 [22]).pc.toNat = some 22 ∧
      22 ≤ (22 : Word).toNat := by decide
theorem witness_EveryRunningStepAnswersNext :
    State.reset.run = .running ∧ (State.reset.raise .halted 0 none).run = .terminated { outcome := .halted, atAddr := 0, word := some 0 } := by decide
theorem witness_TerminatingStepsCommitNothing :
    State.reset.run = .running ∧
      step State.reset = .next (State.reset.terminate { outcome := .halted, atAddr := 0, word := some 0 }) := ⟨rfl, rfl⟩
theorem witness_TerminationRecordsAreTrue :
    (placed 32768 []).run = .running ∧
      step (placed 32768 []) = .next ((placed 32768 []).terminate { outcome := .pointerExhausted, atAddr := 32768 }) ∧
      step (start [1, 8]) = .next ((start [1, 8]).raise .invalidRegister 1 (some 8)) ∧
      step (start [15, 32768, 32776]) = .next ((start [15, 32768, 32776]).raise .addressRange 15 (some 32776)) ∧
      step (start [16, 65535]) = .next ((start [16, 65535]).raise .addressRange 16 (some 65535)) :=
  ⟨rfl, rfl, rfl, rfl, rfl⟩
theorem witness_HaltedIsReachedInThreeWays :
    State.reset.run = .running ∧ (start [18]).run = .running ∧ (start [3, 7]).run = .running ∧
      (start [3, 7]).memRead ((start [3, 7]).pc.toNat + 1) = some 7 ∧ dst (.ofWord 7) = some 7 ∧ (start [3, 7]).stack = [] := by decide
theorem witness_SourceDefinedInstructionsGoOnOrHalt :
    (start [15, 32768, 32767]).run = .running ∧
      decode (start [15, 32768, 32767]).fetchWords = .ok (.rmem (.register 0) (.literal 32767), [0]) ∧
      SourceDefined (.rmem (.register 0) (.literal 32767)) (start [15, 32768, 32767]) :=
  ⟨rfl, by decide, by decide, by decide, by decide⟩
theorem witness_OutputIsAppendOnlyAndUnread :
    exec (.out (.literal 321)) State.reset = .next (State.jump { State.reset with out := [65] } 2) ∧
      State.reset.run = .running ∧ step State.reset = .next (State.reset.raise .halted 0 none) := ⟨rfl, rfl, rfl⟩
theorem witness_EveryRunFlushesExactlyOnce :
    ([] : List Word).length ≤ 32768 ∧ core.run 0 (State.resetWith []) = .next (State.resetWith []) ∧
      core.run 1 (State.resetWith []) = .next ((State.resetWith []).raise .halted 0 none) ∧
      ((State.resetWith []).raise .halted 0 none).run = .terminated { outcome := .halted, atAddr := 0, word := some 0 } :=
  ⟨by decide, rfl, rfl, rfl⟩
theorem witness_DecodeOfEncode : (Instr.wmem (.literal 32767) (.malformed 32776)).wf = true := by decide
theorem witness_EncodeOfDecode :
    decode [2, 65535, 7] = .ok (.push (.malformed 65535), [7]) ∧ decode [] = .error .noOpcodeWord ∧
      decode [22] = .error (.invalidOpcode 22) ∧ decode [4, 1, 2] = .error (.operandMissing 4) := by decide
theorem witness_AssembledLineIsOneInstruction :
    asmLineWords [.label 3] (.instr 16 [.reg 7, .label 3]) = some [16, 32775, 0] := by decide
theorem witness_LaunchHoldsTheImage :
    ([5] : List Word).length ≤ 32768 ∧ ([5] : List Word)[0]? = some 5 ∧ ([5] : List Word).length ≤ 1 ∧
      32768 < (List.replicate 32769 (0 : Word)).length := ⟨by decide, rfl, by decide, by rw [List.length_replicate]; decide⟩
theorem witness_ImageWordsAreLittleEndianPairs :
    ([0x13, 0x80, 0x41] : List Byte)[2 * 0]? = some 0x13 ∧ ([0x13, 0x80, 0x41] : List Byte)[2 * 0 + 1]? = some 0x80 := by decide
theorem witness_ResetForgetsThePreviousRun :
    (State.reset.raise .halted 0 none).run = .terminated { outcome := .halted, atAddr := 0, word := some 0 } ∧
      ([1, 2] : List Word).length ≤ 32768 := by decide
theorem witness_StatusesTellOutcomesApart :
    ({ pointerExhausted := -3, invalidRegister := -4, divideByZero := -5, addressRange := -6, stackOverflow := -7 } : Config.StatusNumbers).wf = true := by decide
theorem witness_StepKeepsTheInvariant : State.reset.wf ∧ step State.reset = .next (State.reset.raise .halted 0 none) :=
  ⟨⟨rfl, ⟨rfl, rfl⟩, fun _ h => by cases h⟩, rfl⟩

end Sys2Proof.Tests
end

section
/-!
PROOFS, family 10_state: what the decoder can answer, and what a fetch makes of it.
-/
namespace Sys2Proof

/-- A word is told by its number (30_encoding.md R71). -/
theorem word_of_toNat {w : Word} {k : Nat} (h : w.toNat = k) : w = BitVec.ofNat 16 k := by
  rw [← h, BitVec.ofNat_toNat, BitVec.setWidth_eq]

/-- The opcode words are those that have an arity (R77, R78). -/
theorem exists_arity_iff {w : Word} : (∃ n, arity w = some n) ↔ w.toNat < 22 := by
  unfold arity
  rw [← Option.isSome_iff_exists, isSome_getElem?]
  rfl

/-- What decodes is the encoding of a well-formed instruction, and the words after it are left. -/
theorem decode_ok {ws rest : List Word} {i : Instr} (h : decode ws = .ok (i, rest)) :
    i.wf = true ∧ ws = encode i ++ rest := by
  unfold decode at h
  split at h
  · cases h
  · split at h
    case h_23 => split at h <;> cases h
    all_goals
      rename_i hw
      cases h
      simp [word_of_toNat hw, Instr.wf, Instr.operands, encode, Instr.opcode]

/-- An opcode word with all its operand words is never refused (R70, R77). -/
theorem decode_ne_error {w : Word} {n : Nat} {ops : List Word} (h : arity w = some n) (hl : n ≤ ops.length)
    (e : DecodeError) : decode (w :: ops) ≠ .error e := by
  have hw : w.toNat < 22 := exists_arity_iff.1 ⟨n, h⟩
  unfold arity at h
  simp only [decode]
  generalize w.toNat = k at h hw ⊢
  interval_cases k
  all_goals
    cases h
    rcases ops with _ | ⟨a, _ | ⟨b, _ | ⟨c, r⟩⟩⟩ <;> simp at hl ⊢

/-- Why a list of words that begins with `w` is refused: `w` is no opcode, or it lacks an operand word. -/
theorem decode_error {w : Word} {ops : List Word} {e : DecodeError} (h : decode (w :: ops) = .error e) :
    (21 < w.toNat ∧ e = .invalidOpcode w) ∨ ∃ n, arity w = some n ∧ ops.length < n ∧ e = .operandMissing w := by
  have short : ∀ n, arity w = some n → ops.length < n := fun n hn => by
    by_contra hl
    exact decode_ne_error hn (not_lt.1 hl) e h
  simp only [decode] at h
  split at h
  case h_23 =>
    split at h
    · rename_i hw
      cases h
      obtain ⟨n, hn⟩ := exists_arity_iff.2 hw
      exact .inr ⟨n, hn, short n hn, rfl⟩
    · rename_i hw
      cases h
      exact .inl ⟨not_lt.1 hw, rfl⟩
  all_goals cases h

end Sys2Proof

namespace Sys2Proof.Machine

/-- The words at the pc are none, or the opcode word there and words after it (40_executor.md R91 stage (1)). -/
theorem fetchWords_cases (s : State) :
    (32768 ≤ s.pc.toNat ∧ s.fetchWords = []) ∨
      ∃ w ops, s.memRead s.pc.toNat = some w ∧ s.fetchWords = w :: ops := by
  rcases h : s.memRead s.pc.toNat with _ | w
  · have h := State.memRead_none.1 h
    exact .inl ⟨h, State.wordsFrom_end h _⟩
  · exact .inr ⟨w, _, rfl, State.wordsFrom_succ h _⟩

/-- An instruction that is fetched stands at the pc. -/
theorem holdsAtPc_of_fetch {s : State} {i : Instr} (h : fetch s = .ok i) : HoldsAtPc i s := by
  unfold fetch at h
  split at h
  · rename_i j rest hd
    cases h
    obtain ⟨hwf, hws⟩ := decode_ok hd
    refine ⟨hwf, fun k w hk => State.wordsFrom_get s (1 + Config.maxOperands) _ k w ?_⟩
    have hk' : k < (encode i).length := (List.getElem?_eq_some_iff.1 hk).1
    change s.fetchWords[k]? = some w
    rw [hws, List.getElem?_append_left hk', hk]
  · cases h

/-- The opcode words that can lack an operand word and are not `in` are those R200 lists for PointerExhausted. -/
theorem pointerExhausted_raisedBy {w : Word} {n : Nat} (h : arity w = some n) (hn : 0 < n) (hw : w ≠ 20) :
    TermOutcome.raisedBy .pointerExhausted w = true := by
  have hlt : w.toNat < 22 := exists_arity_iff.1 ⟨n, h⟩
  have hno : w ≠ 0 ∧ w ≠ 18 ∧ w ≠ 21 := by
    refine ⟨?_, ?_, ?_⟩ <;> rintro rfl <;> cases h <;> omega
  simp only [TermOutcome.raisedBy, List.mem_cons, hno, hw, List.not_mem_nil, or_self, not_false_eq_true, decide_true,
    Bool.and_true, decide_eq_true_eq]
  omega

/-! Each of the four records a fetch can fail with is true of the state (R202, R203, R204). -/

theorem opcodeFetchRecord_true {s : State} (h : 32768 ≤ s.pc.toNat) : (opcodeFetchRecord s).trueOf s := by
  simp [TermRecord.trueOf, TermRecord.infoTrueOf, opcodeFetchRecord, h]

theorem invalidOpcodeRecord_true {s : State} {w : Word} (hm : s.memRead s.pc.toNat = some w) (hw : 21 < w.toNat) :
    (invalidOpcodeRecord s w).trueOf s := by
  have hp := (State.memRead_some.1 hm).1
  simp [TermRecord.trueOf, TermRecord.infoTrueOf, invalidOpcodeRecord, TermOutcome.raisedBy, hm, hp, hw]

theorem unimplementedInputRecord_true {s : State} (hm : s.memRead s.pc.toNat = some 20) :
    (unimplementedInputRecord s).trueOf s := by
  have hp := (State.memRead_some.1 hm).1
  simp [TermRecord.trueOf, TermRecord.infoTrueOf, unimplementedInputRecord, TermOutcome.raisedBy, hm, hp]

theorem operandFetchRecord_true {s : State} {w : Word} (hm : s.memRead s.pc.toNat = some w)
    (hr : TermOutcome.raisedBy .pointerExhausted w = true) : (operandFetchRecord w).trueOf s := by
  have hp := (State.memRead_some.1 hm).1
  simp [TermRecord.trueOf, TermRecord.infoTrueOf, operandFetchRecord, hm, hr, hp]

/-- A fetch that fails reports a true record, of an outcome other than StackOverflow. -/
theorem fetch_error_true {s : State} {r : TermRecord} (h : fetch s = .error r) :
    r.trueOf s ∧ r.outcome ≠ .stackOverflow := by
  unfold fetch at h
  split at h
  · cases h
  · rename_i e hd
    cases h
    rcases fetchWords_cases s with ⟨hp, hf⟩ | ⟨w, ops, hm, hf⟩ <;> rw [hf] at hd
    · cases hd
      exact ⟨opcodeFetchRecord_true hp, nofun⟩
    · rcases decode_error hd with ⟨hw, rfl⟩ | ⟨n, hn, hl, rfl⟩
      · exact ⟨invalidOpcodeRecord_true hm hw, nofun⟩
      · simp only [fetchFailureRecord]
        split
        · rename_i hw
          subst hw
          exact ⟨unimplementedInputRecord_true hm, nofun⟩
        · rename_i hw
          exact ⟨operandFetchRecord_true hm (pointerExhausted_raisedBy hn (by omega) hw), nofun⟩

/-! ## What a step can do -/

/-- Ending a run keeps what its record says true. -/
theorem TermRecord.trueOf_terminate (r q : TermRecord) (s : State) : r.trueOf (s.terminate q) ↔ r.trueOf s :=
  Iff.rfl

/-- An instruction ends the run or leaves run state and transcripts as they were. -/
theorem Effect.ends_or_goesOn {i : Instr} {s t : State} (e : Effect i s t) :
    (∃ r, t = s.terminate r ∧ (HoldsAtPc i s → r.trueOf s) ∧ r.outcome ≠ .stackOverflow) ∨ SameRun s t := by
  cases e with
  | ended r isTrue possible => exact .inl ⟨r, rfl, isTrue, possible⟩
  | wrote | popped | returned | moved | pushed | stored | emitted => exact .inr ⟨rfl, rfl, rfl⟩

/-- Every instruction keeps the canonical form of memory (10_state.md R31). -/
theorem Effect.mem_wf {i : Instr} {s t : State} (e : Effect i s t) (h : s.mem.wf = true) : t.mem.wf = true := by
  cases e with
  | stored a b w hi ha => exact Memory.wf_put h ha _
  | ended | wrote | popped | returned | moved | pushed | emitted => exact h

/-- The inversion lemma of `step`: a running machine ends with a true record, or does what an instruction
at the pc does. -/
theorem step_cases {s t : State} (hr : s.run = .running) (h : step s = .next t) :
    (∃ r, t = s.terminate r ∧ r.trueOf s ∧ r.outcome ≠ .stackOverflow) ∨
      ∃ i, HoldsAtPc i s ∧ exec i s = .next t := by
  rcases hf : fetch s with r | i
  · rw [step_fetch_error hr hf] at h
    cases h
    obtain ⟨isTrue, possible⟩ := fetch_error_true hf
    exact .inl ⟨r, rfl, isTrue, possible⟩
  · exact .inr ⟨i, holdsAtPc_of_fetch hf, step_fetch_ok hr hf ▸ h⟩

/-- A step of a running machine ends the run with a true record or leaves run state and transcripts alone. -/
theorem step_ends_or_goesOn {s t : State} (hr : s.run = .running) (h : step s = .next t) :
    (∃ r, t = s.terminate r ∧ r.trueOf s ∧ r.outcome ≠ .stackOverflow) ∨ SameRun s t := by
  rcases step_cases hr h with ended | ⟨i, hi, he⟩
  · exact .inl ended
  · rcases (effect_of_exec he).ends_or_goesOn with ⟨r, ht, isTrue, possible⟩ | goesOn
    · exact .inl ⟨r, ht, isTrue hi, possible⟩
    · exact .inr goesOn

/-- Every step keeps the canonical form of memory. -/
theorem step_mem_wf {s t : State} (hr : s.run = .running) (h : step s = .next t) (hm : s.mem.wf = true) :
    t.mem.wf = true := by
  rcases step_cases hr h with ⟨r, rfl, -⟩ | ⟨i, -, he⟩
  · exact hm
  · exact (effect_of_exec he).mem_wf hm

/-! ## The invariant -/

theorem State.interfacesOk_running {s : State} (h : s.run = .running) :
    s.interfacesOk ↔ s.flushes = [] ∧ s.dones = [] := by simp [State.interfacesOk, h]

theorem State.interfacesOk_terminated {s : State} {r : TermRecord} (h : s.run = .terminated r) :
    s.interfacesOk ↔ s.flushes = [s.out] ∧ s.dones = [r] := by simp [State.interfacesOk, h]

/-- Ending a running machine that meets the invariant by a true record keeps it. -/
theorem State.wf_terminate {s : State} {r : TermRecord} (h : s.wf) (hr : s.run = .running) (isTrue : r.trueOf s)
    (possible : r.outcome ≠ .stackOverflow) : (s.terminate r).wf := by
  obtain ⟨hm, hi, -⟩ := h
  obtain ⟨hf, hd⟩ := (State.interfacesOk_running hr).1 hi
  refine ⟨hm, (State.interfacesOk_terminated rfl).2 ?_, fun q hq => ?_⟩
  · simp [hf, hd]
  · cases hq
    exact ⟨(TermRecord.trueOf_terminate r r s).2 isTrue, possible⟩

/-- Settles O53: a terminated machine takes no step; a running one ends with a true record, or goes on with
its transcripts empty and its memory in canonical form. -/
theorem stepKeepsTheInvariant : Obligations.StepKeepsTheInvariant := by
  intro s t hs h
  rcases hr : s.run with _ | r
  · rcases step_ends_or_goesOn hr h with ⟨r, rfl, isTrue, possible⟩ | ⟨hrun, hf, hd⟩
    · exact State.wf_terminate hs hr isTrue possible
    · obtain ⟨hm, hi, -⟩ := hs
      have hrt : t.run = .running := hrun.trans hr
      refine ⟨step_mem_wf hr h hm, (State.interfacesOk_running hrt).2 ?_, fun r hr' => ?_⟩
      · rw [hf, hd]
        exact (State.interfacesOk_running hr).1 hi
      · cases hrt.symm.trans hr'
  · rw [step_terminated hr] at h
    cases h

/-- Settles O39: the record a step ends with was true of the state it began in. -/
theorem terminationRecordsAreTrue : Obligations.TerminationRecordsAreTrue := by
  intro s t r hr h ht
  rcases step_ends_or_goesOn hr h with ⟨q, rfl, isTrue, -⟩ | ⟨hrun, -, -⟩
  · cases ht
    exact isTrue
  · cases (hrun.trans hr).symm.trans ht

/-- The state after `Reset(image)` meets the invariant (10_state.md R41, 70_reset_and_hazards.md R230). -/
theorem State.resetWith_wf {image : List Word} (h : image.length ≤ 32768) : (State.resetWith image).wf :=
  ⟨Memory.wf_putWords image rfl (by omega), (State.interfacesOk_running rfl).2 ⟨rfl, rfl⟩, nofun⟩

/-- Settles O48: reset is `Reset` of the empty image. -/
theorem resetMeetsTheInvariant : Obligations.ResetMeetsTheInvariant := by
  refine ⟨State.resetWith_wf (image := []) (Nat.zero_le _), fun i => ?_, rfl, rfl, rfl, rfl, fun a ha => ?_⟩
  · simp [State.reg, State.reset]
  · exact State.memRead_eq ha

/-- Settles O43: every state of the run meets the invariant, whose middle part is the claim. -/
theorem everyRunFlushesExactlyOnce : Obligations.EveryRunFlushesExactlyOnce := by
  intro image k t hl h
  obtain ⟨-, hi, -⟩ : State.wf t := run_invariant core stepKeepsTheInvariant k _ t (State.resetWith_wf hl) h
  exact ⟨fun hr => (State.interfacesOk_running hr).1 hi, fun r hr => (State.interfacesOk_terminated hr).1 hi⟩

/-! ## What an instruction leaves unchanged -/

/-- Settles O19: `stored` is the one effect that writes memory. -/
theorem onlyWmemChangesMemory : Obligations.OnlyWmemChangesMemory := by
  intro i s t h
  cases effect_of_exec h with
  | stored a b w hi ha =>
    have hw : s.memWrite _ (val s b) = some _ := State.memWrite_some.2 ⟨ha, rfl⟩
    exact .inr ⟨a, b, hi, fun c hc => (State.jump_memRead ..).trans (State.memWrite_other hw hc)⟩
  | ended | wrote | popped | returned | moved | pushed | emitted => exact .inl fun _ => rfl

/-- Settles O25: the effects that move the stack are those of `push`, `call`, `pop` and `ret`. -/
theorem onlyStackInstructionsMoveTheStack : Obligations.OnlyStackInstructionsMoveTheStack := by
  intro i s t h
  cases effect_of_exec h with
  | pushed a v w hi => exact .inr (.inl ⟨a, v, hi, rfl⟩)
  | popped a d v rest hi hd hs => exact .inr (.inr ⟨v, .inr ⟨a, hi⟩, hs⟩)
  | returned v rest hi hs => exact .inr (.inr ⟨v, .inl hi, hs⟩)
  | ended | wrote | moved | stored | emitted => exact .inl rfl

/-- A register that an instruction changes is the destination of its written operand (R23). -/
theorem Effect.reg_changed {i : Instr} {s t : State} {j : Fin 8} (e : Effect i s t) (hj : t.reg j ≠ s.reg j) :
    ∃ a, writtenOperand i = some a ∧ dst a = some j := by
  have written : ∀ {u : State} {d : Fin 8} {v : Word} {n : Nat}, (u.writeBack d v n).reg j ≠ u.reg j → d = j :=
    fun h => by_contra fun hd => h (State.reg_writeBack_other _ _ _ (Ne.symm hd))
  cases e with
  | wrote a d v n ha hd => exact ⟨a, ha, written hj ▸ hd⟩
  | popped a d v rest hi hd hs => exact ⟨a, hi ▸ rfl, written (u := { s with stack := rest }) hj ▸ hd⟩
  | ended | returned | moved | pushed | stored | emitted => exact absurd rfl hj

/-! ## Two runs of one instruction -/

/-- What an instruction does, as data that no longer looks at registers or output: end the run, or put these
values in place of the old ones. -/
inductive Action where
  | raise (o : TermOutcome) (op : Word) (info : Option Word)
  | goOn (reg : Option (Fin 8 × Word)) (pc : Word) (stack : List Word) (mem : Memory) (added : Option Byte)

/-- The state an action leaves. -/
def Action.apply : Action → State → State
  | .raise o op info, s => s.raise o op info
  | .goOn reg pc stack mem added, s =>
    { s with
      x := reg.elim s.x fun p => s.x.set p.1 p.2
      pc := pc, stack := stack, mem := mem
      out := added.elim s.out fun b => s.out ++ [b] }

/-- The state that differs from `s` in registers and output alone. -/
def State.twin (s : State) (x : Vector Word 8) (o : List Byte) : State := { s with x := x, out := o }

section
variable {s : State} {x : Vector Word 8} {o : List Byte}

theorem State.memRead_twin (a : Nat) : (s.twin x o).memRead a = s.memRead a := rfl

theorem State.memWrite_twin (a : Nat) (v : Word) :
    (s.twin x o).memWrite a v = (s.memWrite a v).map (State.twin · x o) := by
  unfold State.memWrite
  split <;> rfl

theorem State.pop?_twin : (s.twin x o).pop? = s.pop?.map fun p => (p.1, p.2.twin x o) := by
  simp only [State.pop?, State.twin]
  split <;> rfl

/-- Two answers, from `s` and from its twin, are one action. -/
def SameAction (s : State) (x : Vector Word 8) (o : List Byte) (answer answer' : Result) : Prop :=
  ∃ act : Action, answer = .next (act.apply s) ∧ answer' = .next (act.apply (s.twin x o))

theorem sameAction_raise (c : TermOutcome) (op : Word) (info : Option Word) :
    SameAction s x o (.next (s.raise c op info)) (.next ((s.twin x o).raise c op info)) :=
  ⟨.raise c op info, rfl, rfl⟩

theorem sameAction_jump {v v' : Word} (hv : v' = v) :
    SameAction s x o (.next (s.jump v)) (.next ((s.twin x o).jump v')) :=
  ⟨.goOn none v s.stack s.mem none, rfl, hv ▸ rfl⟩

theorem sameAction_pushJump {v v' w w' : Word} (hw : w' = w) (hv : v' = v) :
    SameAction s x o (.next ((s.push w).jump v)) (.next (((s.twin x o).push w').jump v')) :=
  ⟨.goOn none v (s.stack ++ [w]) s.mem none, rfl, hw ▸ hv ▸ rfl⟩

theorem sameAction_writeBack {d : Fin 8} {v v' : Word} {n : Nat} (hv : v' = v) :
    SameAction s x o (.next (s.writeBack d v n)) (.next ((s.twin x o).writeBack d v' n)) :=
  ⟨.goOn (some (d, v)) (s.npc n) s.stack s.mem none, rfl, hv ▸ rfl⟩

theorem sameAction_withDst {op : Word} {a : Operand} {k k' : Fin 8 → Result}
    (hk : ∀ d, SameAction s x o (k d) (k' d)) :
    SameAction s x o (withDst s op a k) (withDst (s.twin x o) op a k') := by
  rcases hd : dst a with _ | d
  · rw [withDst_none hd, withDst_none hd]
    exact sameAction_raise _ _ _
  · rw [withDst_some hd, withDst_some hd]
    exact hk d

/-- An instruction that only computes a value and writes it back. -/
theorem sameAction_write {op : Word} {a : Operand} {v v' : Word} {n : Nat} (hv : v' = v) :
    SameAction s x o (withDst s op a fun d => .next (s.writeBack d v n))
      (withDst (s.twin x o) op a fun d => .next ((s.twin x o).writeBack d v' n)) :=
  sameAction_withDst fun _ => sameAction_writeBack hv

/-- Registers enter an instruction through its value operands alone, and the output not at all: where the
operands have the same values in both states, the instruction is the same action on both (R23, R32). -/
theorem exec_sameAction (i : Instr) (h : ∀ p ∈ valueOperands i, val (s.twin x o) p = val s p) :
    SameAction s x o (exec i s) (exec i (s.twin x o)) := by
  cases i <;>
    simp only [valueOperands, List.forall_mem_cons, List.not_mem_nil, false_implies, implies_true, and_true] at h
  case halt | inp => exact sameAction_raise _ _ _
  case set | eq | gt | add | mult | and | or | not => exact sameAction_write (by simp only [h])
  case push => exact sameAction_pushJump h rfl
  case pop a =>
    refine sameAction_withDst fun d => ?_
    simp only [State.pop?_twin]
    rcases hp : s.pop? with _ | ⟨v, t⟩
    · exact sameAction_raise _ _ _
    · obtain ⟨rest, -, rfl⟩ := State.pop?_some.1 hp
      exact ⟨.goOn (some (d, v)) (s.npc 1) rest s.mem none, rfl, rfl⟩
  case noop => exact sameAction_jump rfl
  case jmp => exact sameAction_jump h
  case jt | jf => exact sameAction_jump (by simp only [h]; rfl)
  case mod a b c =>
    refine sameAction_withDst fun d => ?_
    simp only [h]
    split
    · exact sameAction_raise _ _ _
    · exact sameAction_writeBack rfl
  case rmem a b =>
    refine sameAction_withDst fun d => ?_
    simp only [h, State.memRead_twin]
    split
    · exact sameAction_raise _ _ _
    · exact sameAction_writeBack rfl
  case wmem a b =>
    simp only [exec, execWmem, wmemAddress, h, State.memWrite_twin]
    rcases hw : s.memWrite (val s a).toNat (val s b) with _ | t
    · exact sameAction_raise _ _ _
    · obtain ⟨-, rfl⟩ := State.memWrite_some.1 hw
      exact ⟨.goOn none (s.npc 2) s.stack (s.mem.put (val s a).toNat (val s b)) none, rfl, rfl⟩
  case call => exact sameAction_pushJump rfl h
  case ret =>
    simp only [exec, execRet, State.pop?_twin]
    rcases hp : s.pop? with _ | ⟨v, t⟩
    · exact sameAction_raise _ _ _
    · obtain ⟨rest, -, rfl⟩ := State.pop?_some.1 hp
      exact ⟨.goOn none v rest s.mem none, rfl, rfl⟩
  case out a =>
    simp only [exec, execOut, h]
    exact ⟨.goOn none (s.npc 1) s.stack s.mem (some (lowByte (val s a))), rfl, rfl⟩

end

/-- A register after an action is untouched in both runs or equal in both. -/
theorem Action.reg_apply (act : Action) (s : State) (x : Vector Word 8) (o : List Byte) (j : Fin 8) :
    ((act.apply s).reg j = s.reg j ∧ (act.apply (s.twin x o)).reg j = (s.twin x o).reg j) ∨
      (act.apply (s.twin x o)).reg j = (act.apply s).reg j := by
  cases act with
  | raise => exact .inl ⟨rfl, rfl⟩
  | goOn reg pc stack mem added =>
    rcases reg with _ | ⟨d, v⟩
    · exact .inl ⟨rfl, rfl⟩
    · by_cases hj : j = d
      · subst hj
        exact .inr (((s.twin x o).reg_setReg_same j v).trans (s.reg_setReg_same j v).symm)
      · exact .inl ⟨s.reg_setReg_other v hj, (s.twin x o).reg_setReg_other v hj⟩

/-- An action adds the same bytes to any output. -/
theorem Action.out_apply (act : Action) (s : State) (x : Vector Word 8) (o : List Byte) :
    ∃ added, (act.apply s).out = s.out ++ added ∧ (act.apply (s.twin x o)).out = o ++ added := by
  cases act with
  | raise => exact ⟨[], (List.append_nil _).symm, (List.append_nil _).symm⟩
  | goOn reg pc stack mem added =>
    cases added with
    | none => exact ⟨[], (List.append_nil _).symm, (List.append_nil _).symm⟩
    | some b => exact ⟨[b], rfl, rfl⟩

/-- Settles O33: the effects say which register can change, and in two runs the instruction is one action. -/
theorem registersAreTouchedOnlyByOperands : Obligations.RegistersAreTouchedOnlyByOperands := by
  refine ⟨fun i s t j h => (effect_of_exec h).reg_changed, fun i s x h => ?_⟩
  obtain ⟨act, h1, h2⟩ := exec_sameAction (o := s.out) i h
  refine ⟨_, _, h1, h2, ?_, act.reg_apply s x s.out⟩
  cases act <;> rfl

/-- Settles O42: `emitted` is the one effect that appends, an action adds the same bytes to any buffer, and a
step flushes exactly when it ends the run. -/
theorem outputIsAppendOnlyAndUnread : Obligations.OutputIsAppendOnlyAndUnread := by
  refine ⟨fun i s t h => ?_, fun a s => ⟨_, _, rfl, rfl⟩, fun i s t o h => ?_, fun s t hr h => ?_⟩
  · cases effect_of_exec h with
    | emitted a b w hi => exact .inr ⟨a, b, hi, rfl⟩
    | ended | wrote | popped | returned | moved | pushed | stored => exact .inl rfl
  · obtain ⟨act, h1, h2⟩ := exec_sameAction (x := s.x) (o := o) i fun p _ => val_congr rfl p
    cases h.symm.trans h1
    obtain ⟨added, hs, ho⟩ := act.out_apply s s.x o
    refine ⟨_, added, h2, hs, ho, ?_⟩
    cases act <;> rfl
  · rcases step_ends_or_goesOn hr h with ⟨r, rfl, -⟩ | ⟨hrun, hf, -⟩
    · exact .inr ⟨nofun, rfl⟩
    · exact .inl ⟨hrun.trans hr, hf⟩

end Sys2Proof.Machine
end

section
/-!
PROOFS, family 20_memory: what a step does at each opcode word, the image load and the byte pairs.
-/
namespace Sys2Proof

/-! ## What the decoder answers, by opcode word and number of operand words (30_encoding.md R70, R77, R78) -/

/-- An instruction has as many operands as its opcode word asks for (R77). -/
theorem arity_opcode (i : Instr) : arity i.opcode = some i.operands.length := by cases i <;> rfl

theorem arity_le_three {w : Word} {n : Nat} (h : arity w = some n) : n ≤ 3 := by
  have hn := List.mem_of_getElem? h
  simp only [List.mem_cons, List.not_mem_nil, or_false] at hn
  omega

/-- The words of a decoded instruction: its opcode word, its operand words and the rest. -/
theorem decode_cons_ok {w : Word} {ops rest : List Word} {i : Instr} (h : decode (w :: ops) = .ok (i, rest)) :
    i.opcode = w ∧ ops = i.operands.map Operand.raw ++ rest := by
  obtain ⟨-, hws⟩ := decode_ok h
  rw [encode, List.cons_append, List.cons.injEq] at hws
  exact ⟨hws.1.symm, hws.2⟩

theorem decode_invalidOpcode {w : Word} (hw : 21 < w.toNat) (ops : List Word) :
    decode (w :: ops) = .error (.invalidOpcode w) := by
  have noArity : ∀ n, arity w ≠ some n := fun n hn => absurd (exists_arity_iff.1 ⟨n, hn⟩) (by omega)
  rcases h : decode (w :: ops) with e | ⟨i, rest⟩
  · rcases decode_error h with ⟨-, rfl⟩ | ⟨n, hn, -⟩
    · rfl
    · exact absurd hn (noArity n)
  · obtain ⟨rfl, -⟩ := decode_cons_ok h
    exact absurd (arity_opcode i) (noArity _)

theorem decode_operandMissing {w : Word} {n : Nat} {ops : List Word} (hn : arity w = some n) (hl : ops.length < n) :
    decode (w :: ops) = .error (.operandMissing w) := by
  rcases h : decode (w :: ops) with e | ⟨i, rest⟩
  · rcases decode_error h with ⟨hw, -⟩ | ⟨-, -, -, rfl⟩
    · exact absurd (exists_arity_iff.1 ⟨n, hn⟩) (by omega)
    · rfl
  · obtain ⟨rfl, rfl⟩ := decode_cons_ok h
    cases (arity_opcode i).symm.trans hn
    simp at hl

theorem decode_complete {w : Word} {n : Nat} {ops : List Word} (hn : arity w = some n) (hl : n ≤ ops.length) :
    ∃ i rest, decode (w :: ops) = .ok (i, rest) ∧ i.opcode = w ∧ i.operands.length = n := by
  rcases h : decode (w :: ops) with e | ⟨i, rest⟩
  · exact absurd h (decode_ne_error hn hl e)
  · obtain ⟨rfl, -⟩ := decode_cons_ok h
    exact ⟨i, rest, rfl, rfl, Option.some.inj ((arity_opcode i).symm.trans hn)⟩

end Sys2Proof

namespace Sys2Proof.Machine

/-! ## What a step of a running machine does at the opcode word `w` (40_executor.md R91) -/

/-- The operand words fetched with an opcode word: three, or those before the end of memory. -/
def State.operandWords (s : State) : List Word := s.wordsFrom (s.pc.toNat + 1) Config.maxOperands

theorem State.operandWords_length (s : State) : s.operandWords.length = min 3 (32767 - s.pc.toNat) := by
  rw [State.operandWords, State.wordsFrom_length, Config.maxOperands]
  omega

section
variable {s : State} {w : Word} (hr : s.run = .running) (hm : s.memRead s.pc.toNat = some w)
include hm

theorem fetchWords_eq_cons : s.fetchWords = w :: s.operandWords := State.wordsFrom_succ hm Config.maxOperands

theorem fetch_of_decode_ok {i : Instr} {rest : List Word} (hd : decode (w :: s.operandWords) = .ok (i, rest)) :
    fetch s = .ok i := by
  rw [← fetchWords_eq_cons hm] at hd
  simp [fetch, hd]

theorem fetch_of_decode_error {e : DecodeError} (hd : decode (w :: s.operandWords) = .error e) :
    fetch s = .error (fetchFailureRecord s e) := by
  rw [← fetchWords_eq_cons hm] at hd
  simp [fetch, hd]

include hr

/-- An opcode word in 22..65535 ends the run, and its neighbours are recorded (R203, D16). -/
theorem step_invalidOpcode (hw : 21 < w.toNat) : step s = .next (s.terminate (invalidOpcodeRecord s w)) :=
  step_fetch_error hr (fetch_of_decode_error hm (decode_invalidOpcode hw _))

/-- An operand word past the end of memory ends the run (R204, D4), or is not asked for by `in` (R202, D6). -/
theorem step_operandMissing {n : Nat} (hn : arity w = some n) (hp : 32768 ≤ s.pc.toNat + n) :
    step s = .next (s.terminate (if w = 20 then unimplementedInputRecord s else operandFetchRecord w)) := by
  have hlt := (State.memRead_some.1 hm).1
  have hl : s.operandWords.length < n := by rw [State.operandWords_length]; omega
  exact step_fetch_error hr (fetch_of_decode_error hm (decode_operandMissing hn hl))

/-- With all its operand words in memory, the opcode word and these are the instruction that runs. -/
theorem step_complete {n : Nat} (hn : arity w = some n) (hp : s.pc.toNat + n < 32768) :
    ∃ i, HoldsAtPc i s ∧ i.opcode = w ∧ i.operands.length = n ∧ step s = exec i s := by
  have hl : n ≤ s.operandWords.length := by
    have hn3 := arity_le_three hn
    rw [State.operandWords_length]
    omega
  obtain ⟨i, rest, hd, hop, hlen⟩ := decode_complete hn hl
  have hf : fetch s = .ok i := fetch_of_decode_ok hm hd
  exact ⟨i, holdsAtPc_of_fetch hf, hop, hlen, step_fetch_ok hr hf⟩

/-- `in` ends the run whether or not its operand word lies in memory (R182, R202, D6). -/
theorem step_inp (hw : w = 20) : step s = .next (s.terminate (unimplementedInputRecord s)) := by
  subst hw
  rcases Nat.lt_or_ge (s.pc.toNat + 1) 32768 with hp | hp
  · have hops : s.operandWords = s.mem.get (s.pc.toNat + 1) :: s.wordsFrom (s.pc.toNat + 2) 2 :=
      State.wordsFrom_succ (State.memRead_eq hp) 2
    have hd : decode (20 :: s.operandWords) =
        .ok (.inp (.ofWord (s.mem.get (s.pc.toNat + 1))), s.wordsFrom (s.pc.toNat + 2) 2) := by
      rw [hops]
      rfl
    exact step_fetch_ok hr (fetch_of_decode_ok hm hd)
  · exact step_operandMissing hr hm (n := 1) rfl hp

/-- The whole of R91 at an opcode word, for every running machine. -/
theorem stepRunsOpcodeWord : StepRunsOpcodeWord w s := by
  refine ⟨fun hw => endsWith_terminate ?_, fun hw => endsWith_terminate (step_inp hr hm hw),
    fun n hn hw hp => endsWith_terminate ?_, fun n hn hw hp => ?_⟩
  · have hnext : s.memRead (s.pc.toNat + 1) = if s.pc = 32767 then none else s.memRead (s.pc.toNat + 1) := by
      split
      · rename_i hp
        rw [hp]
        rfl
      · rfl
    rw [← hnext]
    exact step_invalidOpcode hr hm hw
  · rw [step_operandMissing hr hm hn hp, if_neg hw]
    rfl
  · obtain ⟨i, hi, hop, hlen, hs⟩ := step_complete hr hm hn hp
    refine ⟨i, hi.1, hop, hlen, hs, fun k o ho => ?_⟩
    rw [Nat.add_right_comm, Nat.add_assoc]
    exact (hi.operand ho).1

theorem step_noop (hw : w = 21) : step s = .next (s.jump (s.npc 0)) := by
  have hd : decode (w :: s.operandWords) = .ok (.noop, s.operandWords) := by
    rw [hw]
    rfl
  exact step_fetch_ok hr (fetch_of_decode_ok hm hd)

theorem step_halt (hw : w = 0) : step s = .next (s.raise .halted 0 none) := by
  have hd : decode (w :: s.operandWords) = .ok (.halt, s.operandWords) := by
    rw [hw]
    rfl
  exact step_fetch_ok hr (fetch_of_decode_ok hm hd)

end

/-- A store that lies in memory, and the pc after it (R161). -/
theorem exec_wmem_some {a b : Operand} {s u : State} (hw : s.memWrite (wmemAddress a s) (val s b) = some u) :
    exec (.wmem a b) s = .next (u.jump (s.npc 2)) := by simp only [exec, execWmem, hw]

/-- Settles O20: after the store the next instruction's address reads as the word stored, so the next step is
what R91 gives for that word. -/
theorem storeIsSeenByTheNextFetch : Obligations.StoreIsSeenByTheNextFetch := by
  intro a b s hwf hrun hp ha
  rcases hw : s.memWrite (wmemAddress a s) (val s b) with _ | u
  · exact absurd (State.memWrite_none.1 hw) (by omega)
  obtain ⟨-, hu⟩ := State.memWrite_some.1 hw
  have hpc : (s.npc 2).toNat = s.pc.toNat + 3 := s.npc_toNat 2 (by omega)
  have hr : (u.jump (s.npc 2)).run = .running := by rw [State.jump_run, hu, hrun]
  have hm : (u.jump (s.npc 2)).memRead (u.jump (s.npc 2)).pc.toNat = some (val s b) := by
    rw [State.jump_memRead, State.jump_pc, hpc, ← ha]
    exact State.memWrite_same hwf hw
  refine ⟨u.jump (s.npc 2), exec_wmem_some hw, hr, hpc, by rw [fetchWords_eq_cons hm]; rfl,
    stepRunsOpcodeWord hr hm, fun hv => ?_, fun hv => endsWith_terminate (step_halt hr hm hv)⟩
  refine ⟨_, step_noop hr hm hv, ⟨fun _ => rfl, rfl, fun _ => rfl, rfl, rfl, rfl, rfl⟩, ?_⟩
  rw [State.jump_pc, State.npc_toNat _ 0 (by rw [State.jump_pc]; omega), State.jump_pc]
  omega

/-! ## The image load and the byte stream (20_memory.md R53, R54) -/

/-- What every address of memory reads after an image load (20_memory.md R53). -/
theorem Memory.get_ofImage {image : List Word} (h : image.length ≤ 32768) (a : Nat) :
    (Memory.ofImage image).get a = image.getD a 0 := by
  rw [Memory.ofImage, Memory.get_putWords image [] 0 a rfl (by omega)]
  split
  · rfl
  · rw [List.getD_eq_default _ _ (by omega)]
    rfl

/-- Settles O49: the invariant and the registers are those of reset, and memory is the image load's. -/
theorem launchHoldsTheImage : Obligations.LaunchHoldsTheImage := by
  refine ⟨fun image hl => ?_, fun image hl => if_neg (not_le.2 hl)⟩
  obtain ⟨-, hreg, -⟩ := resetMeetsTheInvariant
  refine ⟨State.resetWith image, if_pos hl, State.resetWith_wf hl, rfl, rfl, rfl, rfl, hreg, fun a w ha => ?_,
    fun a ha ha' => ?_⟩
  · obtain ⟨hlt, -⟩ := List.getElem?_eq_some_iff.1 ha
    refine State.memRead_some.2 ⟨by omega, (Memory.get_ofImage hl a).trans ?_⟩
    rw [List.getD_eq_getElem?_getD, ha, Option.getD_some]
  · exact State.memRead_some.2 ⟨ha', (Memory.get_ofImage hl a).trans (List.getD_eq_default _ _ ha)⟩

theorem wordOfBytes_toNat (lo hi : Byte) : (wordOfBytes lo hi).toNat = lo.toNat + 256 * hi.toNat := by
  rw [wordOfBytes, BitVec.toNat_ofNat, Nat.mod_eq_of_lt (by omega)]

theorem imageOfBytes_length : ∀ bytes : List Byte, (imageOfBytes bytes).length = bytes.length / 2
  | [] | [_] => by simp [imageOfBytes]
  | _ :: _ :: bs => by
    simp only [imageOfBytes, List.length_cons, imageOfBytes_length bs]
    omega

/-- Each whole pair of bytes is the word at its place. -/
theorem imageOfBytes_getElem? {lo hi : Byte} : ∀ {bytes : List Byte} {i : Nat}, bytes[2 * i]? = some lo →
    bytes[2 * i + 1]? = some hi → (imageOfBytes bytes)[i]? = some (wordOfBytes lo hi)
  | [], _, hlo, _ => by cases hlo
  | [_], _, _, hhi => by cases hhi
  | b :: c :: bs, 0, hlo, hhi => by
    cases hlo
    cases hhi
    rfl
  | b :: c :: bs, i + 1, hlo, hhi => imageOfBytes_getElem? (bytes := bs) (i := i) hlo hhi

/-- Settles O50: by induction along the pairs of the stream. -/
theorem imageWordsAreLittleEndianPairs : Obligations.ImageWordsAreLittleEndianPairs := fun bytes =>
  ⟨imageOfBytes_length bytes, fun _ lo hi hlo hhi =>
    ⟨wordOfBytes lo hi, imageOfBytes_getElem? hlo hhi, wordOfBytes_toNat lo hi⟩⟩

end Sys2Proof.Machine
end

section
/-!
PROOFS, family 30_encoding: decoder and encoder are inverse, and what a line of a listing assembles to.
-/
namespace Sys2Proof

/-! ## Decoder and encoder (30_encoding.md R70 to R78) -/

/-- The operands of a well-formed instruction survive the way through their words (R72). -/
theorem Instr.ofWord_raw_of_mem {i : Instr} (h : i.wf = true) : ∀ o ∈ i.operands, Operand.ofWord o.raw = o :=
  fun o ho => Operand.ofWord_raw (List.all_eq_true.1 h o ho)

/-- Settles O45: the decoder's row for the opcode rebuilds the instruction from the classes of its operand
words, and each of these is the operand the word came from. -/
theorem decodeOfEncode : Obligations.DecodeOfEncode := by
  intro i rest h
  have operandsBack := Instr.ofWord_raw_of_mem h
  cases i
  all_goals
    simp only [Instr.operands, List.forall_mem_cons] at operandsBack
    simp [encode, Instr.opcode, Instr.operands, decode, operandsBack]

/-- Settles O46: `decode_ok` is the first part, and `decode_error` gives the reasons where there is a word. -/
theorem encodeOfDecode : Obligations.EncodeOfDecode := by
  refine ⟨fun ws rest i => decode_ok, fun ws e h => ?_⟩
  cases ws with
  | nil =>
    cases h
    exact .inl ⟨rfl, rfl⟩
  | cons w ops =>
    rcases decode_error h with ⟨hw, he⟩ | ⟨n, hn, hl, he⟩
    · exact .inr (.inl ⟨w, ops, rfl, hw, he⟩)
    · exact .inr (.inr ⟨w, ops, n, rfl, hn, hl, he⟩)

/-- An opcode word with exactly the operand words it asks for is one instruction, with nothing left (R77). -/
theorem decode_exact {w : Word} {ops : List Word} (h : arity w = some ops.length) :
    ∃ i : Instr, decode (w :: ops) = .ok (i, []) ∧ i.opcode = w ∧ i.operands.map Operand.raw = ops := by
  obtain ⟨i, rest, hd, hop, hlen⟩ := decode_complete h (Nat.le_refl _)
  obtain ⟨-, hops⟩ := decode_cons_ok hd
  obtain rfl : rest = [] := by
    have hl := congrArg List.length hops
    rw [List.length_append, List.length_map, hlen] at hl
    exact List.eq_nil_of_length_eq_zero (by omega)
  exact ⟨i, hd, hop, by rw [hops, List.append_nil]⟩

/-- Settles O44: the decoder runs on the eight lists. -/
theorem sampleWordsDecode : Obligations.SampleWordsDecode := by
  unfold Obligations.SampleWordsDecode
  decide

end Sys2Proof

namespace Sys2Proof.Machine

/-! ## The lines of a listing (30_encoding.md R80, R81) -/

/-- Where every element of a list is mapped to a value, there are as many values as elements. -/
theorem length_of_mapM_eq_some {α β : Type} {f : α → Option β} :
    ∀ {l : List α} {l' : List β}, l.mapM f = some l' → l'.length = l.length
  | [], _, h => by cases h; rfl
  | a :: l, _, h => by
    simp only [List.mapM_cons, Option.bind_eq_bind, Option.bind_eq_some_iff] at h
    obtain ⟨b, -, l', hl, h⟩ := h
    cases h
    rw [List.length_cons, List.length_cons, length_of_mapM_eq_some hl]

/-- The inversion of an instruction line: it has the operands its opcode asks for, and its words are the opcode
word and theirs. -/
theorem asmLineWords_instr {prog : List AsmLine} {op : Fin 22} {args : List AsmOperand} {ws : List Word}
    (h : asmLineWords prog (.instr op args) = some ws) :
    ∃ ops, ws = BitVec.ofNat 16 op.val :: ops ∧ arity (BitVec.ofNat 16 op.val) = some args.length ∧
      args.mapM (asmOperandWord prog) = some ops := by
  simp only [asmLineWords] at h
  split at h
  · rename_i hn
    obtain ⟨ops, hops, rfl⟩ := Option.map_eq_some_iff.1 h
    exact ⟨ops, rfl, hn, hops⟩
  · cases h

/-- Settles O47: the line's operand words are exactly those its opcode word asks for. -/
theorem assembledLineIsOneInstruction : Obligations.AssembledLineIsOneInstruction := by
  intro prog op args ws h
  obtain ⟨ops, rfl, hn, hops⟩ := asmLineWords_instr h
  rw [← length_of_mapM_eq_some hops] at hn
  obtain ⟨i, hd, hop, hraw⟩ := decode_exact hn
  exact ⟨i, hd, hop, hraw ▸ hops⟩

/-! ## The words that are no opcode (R78) -/

/-- Settles O36: the decoder refuses the word before it looks for operands. -/
theorem opcodesAbove21AreInvalid : Obligations.OpcodesAbove21AreInvalid := fun s w hr hm hw =>
  ⟨invalidOpcodeRecord s w, rfl, rfl, rfl, endsWith_terminate (step_invalidOpcode hr hm hw)⟩

end Sys2Proof.Machine
end

section
/-!
PROOFS, family 40_executor: the stages of a step, and what an operand word stands for.
-/
namespace Sys2Proof.Machine

/-! ## The instruction at the pc is the one that runs (R91, R96) -/

/-- Words that stand in memory from an address on are the first of those read from there. -/
theorem State.wordsFrom_eq_append {s : State} : ∀ {ws : List Word} {a n : Nat}, ws.length ≤ n →
    (∀ k w, ws[k]? = some w → s.memRead (a + k) = some w) → ∃ rest, s.wordsFrom a n = ws ++ rest
  | [], a, n, _, _ => ⟨s.wordsFrom a n, rfl⟩
  | w :: ws, a, n + 1, hl, h => by
    have hm : s.memRead a = some w := h 0 w rfl
    obtain ⟨rest, hws⟩ : ∃ rest, s.wordsFrom (a + 1) n = ws ++ rest := by
      refine State.wordsFrom_eq_append (Nat.le_of_succ_le_succ hl) fun k v hk => ?_
      rw [Nat.add_right_comm]
      exact h (k + 1) v hk
    exact ⟨rest, by rw [State.wordsFrom_succ hm, hws, List.cons_append]⟩

/-- The longest instruction has as many words as a fetch reads (30_encoding.md R70). -/
theorem encode_length_le (i : Instr) : (encode i).length ≤ 1 + Config.maxOperands := by
  have hn : i.operands.length ≤ 3 := arity_le_three (arity_opcode i)
  rw [encode, List.length_cons, List.length_map, Nat.add_comm]
  exact Nat.add_le_add_left hn 1

theorem fetch_eq_ok {s : State} {i : Instr} {rest : List Word} (h : decode s.fetchWords = .ok (i, rest)) :
    fetch s = .ok i := by simp [fetch, h]

/-- What a fetch answers is exactly the instruction that stands at the pc. -/
theorem fetch_eq_ok_iff {s : State} {i : Instr} : fetch s = .ok i ↔ HoldsAtPc i s := by
  refine ⟨holdsAtPc_of_fetch, fun ⟨hwf, hmem⟩ => ?_⟩
  obtain ⟨rest, hws⟩ : ∃ rest, s.fetchWords = encode i ++ rest :=
    State.wordsFrom_eq_append (encode_length_le i) hmem
  exact fetch_eq_ok (hws ▸ decodeOfEncode i rest hwf)

/-- Settles O34: in both cases the fetch answers `i`. -/
theorem stepRunsTheDecodedInstruction : Obligations.StepRunsTheDecodedInstruction :=
  ⟨fun _ _ _ hr hd => step_fetch_ok hr (fetch_eq_ok hd),
    fun _ _ hr hwf hmem => step_fetch_ok hr (fetch_eq_ok_iff.2 ⟨hwf, hmem⟩)⟩

/-! ## The stages in their order, and that each ends in a next state (R91) -/

/-- A pc outside memory ends the run at the opcode fetch (R204). -/
theorem step_pcOutside {s : State} (hr : s.run = .running) (hp : 32768 ≤ s.pc.toNat) :
    step s = .next (s.terminate (opcodeFetchRecord s)) := by
  have hws : s.fetchWords = [] := State.wordsFrom_end hp _
  have hf : fetch s = .error (opcodeFetchRecord s) := by
    rw [fetch, hws]
    rfl
  exact step_fetch_error hr hf

/-- Settles O35: the pc is checked first, and the opcode word there decides the rest. -/
theorem fetchStagesInOrder : Obligations.FetchStagesInOrder := fun _ hr =>
  ⟨fun hp => endsWith_terminate (step_pcOutside hr hp), fun _ hm => stepRunsOpcodeWord hr hm⟩

/-- Every instruction answers a next state: none of its meanings is a fault or a refusal (R91, R96). -/
theorem exec_next (i : Instr) (s : State) : ∃ t, exec i s = .next t :=
  (exec_effect i s).imp fun _ h => h.1

/-- Settles O37: a fetch that fails ends the run, and one that succeeds leaves the answer to `exec`. -/
theorem everyRunningStepAnswersNext : Obligations.EveryRunningStepAnswersNext := by
  refine ⟨exec_next, fun s hr => ?_, fun s r => step_terminated⟩
  rcases hf : fetch s with r | i
  · exact ⟨_, step_fetch_error hr hf⟩
  · exact step_fetch_ok hr hf ▸ exec_next i s

/-! ## What an operand word stands for (R93, R94) -/

/-- The value of an operand that names no register is its own word. -/
theorem val_eq_raw (s : State) {o : Operand} (h : o.isRegister = false) : val s o = o.raw := by
  cases o with
  | literal v => rfl
  | register i => cases h
  | malformed w => rfl

/-- A word whose class is not the registers' is its own value (D12). -/
theorem val_ofWord_self (s : State) {w : Word} (h : (Operand.ofWord w).isRegister = false) :
    val s (.ofWord w) = w := (val_eq_raw s h).trans (Operand.raw_ofWord w)

/-- Settles O31, by the class of the word (30_encoding.md R72). -/
theorem valueResolutionByWordClass : Obligations.ValueResolutionByWordClass := by
  refine ⟨fun s w hw => val_ofWord_self s ?_, fun s i => ?_, fun s w hw => val_ofWord_self s ?_⟩
  · rw [Operand.ofWord_literal (Nat.lt_succ_of_le hw)]
    rfl
  · have hi : Operand.ofWord (BitVec.ofNat 16 (32768 + i.val)) = .register i :=
      Operand.ofWord_register (Operand.raw_register_toNat i)
    rw [hi, val_register]
  · rw [Operand.ofWord_malformed hw]
    rfl

/-- Settles O32: `Dst` looks at the raw word, which the class of an operand word keeps. -/
theorem destinationIsTheWordModulo32768 : Obligations.DestinationIsTheWordModulo32768 := by
  refine ⟨fun w d h => dst_eq_some.2 ?_, fun w h => dst_eq_none.2 ?_⟩
  · rwa [Operand.raw_ofWord]
  · rwa [Operand.raw_ofWord]

end Sys2Proof.Machine
end

section
/-!
PROOFS, family 41_move_stack: `set`, `push`, `pop`, and the faults they share with the other families.
-/
namespace Sys2Proof.Machine

/-! ## What the instructions of every family share (10_state.md R25, 60_exceptions.md R204, R205) -/

/-- Operand words past the end of memory end the run for every opcode word but `in`'s (R204, D4). -/
theorem operandsPastEndExhaust {op : Word} {n : Nat} (hn : arity op = some n) (hop : op ≠ 20) :
    OperandsPastEndExhaust op n := by
  intro s hr hm hp
  obtain ⟨-, -, hmissing, -⟩ := stepRunsOpcodeWord hr hm
  exact hmissing n hn hop hp

/-- A destination word that names no register ends the run, whatever the instruction goes on with (R205, D7). -/
theorem endsWith_badDestination {s : State} {op : Word} {a : Operand} {k : Fin 8 → Result} (h : dst a = none) :
    EndsWith s (withDst s op a k) (badDestination s op a) := endsWith_terminate (withDst_none h)

/-- A pc put to `npc` has advanced with no wrap (R25). -/
theorem advances_of_pc_eq {s t : State} {n : Nat} (h : t.pc = s.npc n) : Advances n s t :=
  ⟨h, fun hp => h ▸ s.npc_toNat n (by omega)⟩

/-! ## `set`, `push` and `pop` by their cases (R110, R111, R112) -/

theorem exec_set {a : Operand} {d : Fin 8} (hd : dst a = some d) (b : Operand) (s : State) :
    exec (.set a b) s = .next (s.writeBack d (val s b) 2) := withDst_some hd

theorem exec_push (a : Operand) (s : State) : exec (.push a) s = .next ((s.push (val s a)).jump (s.npc 1)) := by
  simp only [exec, execPush, execPushWith, State.stackFull_infinite, Bool.false_eq_true, if_false]

theorem exec_pop_nonempty {a : Operand} {s : State} {d : Fin 8} {rest : List Word} {v : Word} (hd : dst a = some d)
    (hs : s.stack = rest ++ [v]) : exec (.pop a) s = .next (State.writeBack { s with stack := rest } d v 1) := by
  have hpop : s.pop? = some (v, { s with stack := rest }) := State.pop?_some.2 ⟨rest, hs, rfl⟩
  simp only [exec, execPop, withDst_some hd, hpop]

theorem exec_pop_empty {a : Operand} {s : State} {d : Fin 8} (hd : dst a = some d) (hs : s.stack = []) :
    exec (.pop a) s = .next (s.raise .halted 3 none) := by
  simp only [exec, execPop, withDst_some hd, State.pop?_none.2 hs]

/-- Settles O1, by whether the destination word names a register. -/
theorem setCopiesItsValue : Obligations.SetCopiesItsValue :=
  ⟨fun _ b s _ hd => ⟨_, exec_set hd b s, writesRegister_writeBack ..⟩,
    fun _ _ _ hd => endsWith_badDestination hd, operandsPastEndExhaust rfl (by decide)⟩

/-- Settles O2: the stack of this hardware is never full. -/
theorem pushAppendsTheResolvedValue : Obligations.PushAppendsTheResolvedValue :=
  ⟨fun a s => ⟨_, exec_push a s, rfl, fun _ => rfl, advances_of_pc_eq rfl, fun _ => rfl, rfl, rfl, rfl, rfl⟩,
    operandsPastEndExhaust rfl (by decide)⟩

/-- Settles O3: a nonempty stack, an empty one, and a destination word that names no register. -/
theorem popDeliversTheTopOrHalts : Obligations.PopDeliversTheTopOrHalts := by
  refine ⟨fun a s d rest v hd hs => ?_, fun a s d hd hs => endsWith_terminate (exec_pop_empty hd hs),
    fun a s hd => endsWith_badDestination hd, operandsPastEndExhaust rfl (by decide)⟩
  obtain ⟨hreg, hregs, hpc, hstack, hmem, hout, hrun⟩ := writesRegister_writeBack { s with stack := rest } d v 1
  exact ⟨_, exec_pop_nonempty hd hs, hreg, hregs, hstack, hpc, hmem, hout, hrun⟩

/-- Settles O23: after `push` the value pushed is on top of the old stack, and `pop` delivers it. -/
theorem pushThenPopRoundTrips : Obligations.PushThenPopRoundTrips := by
  intro a b s d hd
  obtain ⟨pushSpec, -⟩ := pushAppendsTheResolvedValue
  obtain ⟨popSpec, -⟩ := popDeliversTheTopOrHalts
  obtain ⟨t, ht, htop, hregs, -, hmem, hout, hrun, hflushes, hdones⟩ := pushSpec a s
  obtain ⟨u, hu, hreg, hregs', hstack, -, hmem', hout', hrun', hflushes', hdones'⟩ := popSpec b t d _ _ hd htop
  exact ⟨t, u, ht, hu, hreg, hstack, fun j hj => (hregs' j hj).trans (hregs j), fun c => (hmem' c).trans (hmem c),
    hout'.trans hout, hrun'.trans hrun, hflushes'.trans hflushes, hdones'.trans hdones⟩

end Sys2Proof.Machine
end

section
/-!
PROOFS, family 42_compare: `eq` and `gt`. Their faults are those shared by every instruction with a destination.
-/
namespace Sys2Proof.Machine

/-! ## The comparisons write the word 1 or 0 (R120, R121) -/

theorem exec_eq {a : Operand} {d : Fin 8} (hd : dst a = some d) (b c : Operand) (s : State) :
    exec (.eq a b c) s = .next (s.writeBack d (if val s b = val s c then 1 else 0) 3) := by
  rw [← boolWord_decide]
  exact withDst_some hd

theorem exec_gt {a : Operand} {d : Fin 8} (hd : dst a = some d) (b c : Operand) (s : State) :
    exec (.gt a b c) s = .next (s.writeBack d (if (val s c).toNat < (val s b).toNat then 1 else 0) 3) := by
  rw [← boolWord_decide]
  exact withDst_some hd

/-- Settles O4, by whether the destination word names a register. -/
theorem eqWritesOneOrZero : Obligations.EqWritesOneOrZero :=
  ⟨fun _ b c s _ hd => ⟨_, exec_eq hd b c s, writesRegister_writeBack ..⟩,
    fun _ _ _ _ hd => endsWith_badDestination hd, operandsPastEndExhaust rfl (by decide)⟩

/-- Settles O5, by whether the destination word names a register. -/
theorem gtComparesUnsignedAndStrictly : Obligations.GtComparesUnsignedAndStrictly :=
  ⟨fun _ b c s _ hd => ⟨_, exec_gt hd b c s, writesRegister_writeBack ..⟩,
    fun _ _ _ _ hd => endsWith_badDestination hd, operandsPastEndExhaust rfl (by decide)⟩

end Sys2Proof.Machine
end

section
/-!
PROOFS, family 43_jumps: `jmp`, `jt` and `jf` are `State.jump`; what they differ in is the word the pc gets.
-/
namespace Sys2Proof.Machine

/-- Writing the pc is the whole effect of `jump`. -/
theorem onlyMovesPc_jump (s : State) (t : Word) : OnlyMovesPc s (s.jump t) :=
  ⟨fun j => s.jump_reg t j, s.jump_stack t, fun a => s.jump_memRead t a, s.jump_out t,
    s.jump_run t, s.jump_flushes t, s.jump_dones t⟩

/-- A jump out of memory is found by the next opcode fetch, which reports the target (R133, R204). -/
theorem endsWith_step_jump {s : State} {t : Word} (hr : s.run = .running) (ht : 32768 ≤ t.toNat) :
    EndsWith (s.jump t) (step (s.jump t)) { outcome := .pointerExhausted, atAddr := t } :=
  endsWith_terminate (step_pcOutside (s := s.jump t) hr ht)

/-! ## The conditional jumps by their cases (R131, R132) -/

theorem nonZero_eq_true {v : Word} (h : v ≠ 0) : nonZero v = true := decide_eq_true h

@[simp] theorem nonZero_zero : nonZero 0 = false := rfl

theorem exec_jt_nonZero {s : State} {a : Operand} (h : val s a ≠ 0) (b : Operand) :
    exec (.jt a b) s = .next (s.jump (val s b)) := by
  simp only [exec, execJt, nonZero_eq_true h, if_true]

theorem exec_jt_zero {s : State} {a : Operand} (h : val s a = 0) (b : Operand) :
    exec (.jt a b) s = .next (s.jump (s.npc 2)) := by
  simp only [exec, execJt, h, nonZero_zero, Bool.false_eq_true, if_false]

theorem exec_jf_zero {s : State} {a : Operand} (h : val s a = 0) (b : Operand) :
    exec (.jf a b) s = .next (s.jump (val s b)) := by
  simp only [exec, execJf, h, nonZero_zero, Bool.false_eq_true, if_false]

theorem exec_jf_nonZero {s : State} {a : Operand} (h : val s a ≠ 0) (b : Operand) :
    exec (.jf a b) s = .next (s.jump (s.npc 2)) := by
  simp only [exec, execJf, nonZero_eq_true h, if_true]

/-- Settles O6: `jmp` is the jump to its operand's value, and the fault belongs to the step after it. -/
theorem jmpWritesItsTargetToPc : Obligations.JmpWritesItsTargetToPc :=
  ⟨fun a s => ⟨s.jump (val s a), rfl, s.jump_pc _, onlyMovesPc_jump .., endsWith_step_jump⟩,
    operandsPastEndExhaust rfl (by decide)⟩

/-- Settles O7, by whether the condition word is zero. -/
theorem jtJumpsWhenNonZero : Obligations.JtJumpsWhenNonZero :=
  ⟨fun _ b s h => ⟨_, exec_jt_nonZero h b, s.jump_pc _, onlyMovesPc_jump ..⟩,
    fun _ b s h => ⟨_, exec_jt_zero h b, advances_of_pc_eq (s.jump_pc _), onlyMovesPc_jump ..⟩,
    operandsPastEndExhaust rfl (by decide)⟩

/-- Settles O8, by whether the condition word is zero. -/
theorem jfJumpsWhenZero : Obligations.JfJumpsWhenZero :=
  ⟨fun _ b s h => ⟨_, exec_jf_zero h b, s.jump_pc _, onlyMovesPc_jump ..⟩,
    fun _ b s h => ⟨_, exec_jf_nonZero h b, advances_of_pc_eq (s.jump_pc _), onlyMovesPc_jump ..⟩,
    operandsPastEndExhaust rfl (by decide)⟩

/-- Settles O9: a zero condition word takes `jf`, any other takes `jt`. -/
theorem jtAndJfAreComplements : Obligations.JtAndJfAreComplements := by
  intro a b s
  by_cases h : val s a = 0
  · exact ⟨_, _, exec_jt_zero h b, exec_jf_zero h b, .inr ⟨s.jump_pc _, s.jump_pc _⟩⟩
  · exact ⟨_, _, exec_jt_nonZero h b, exec_jf_nonZero h b, .inl ⟨s.jump_pc _, s.jump_pc _⟩⟩

end Sys2Proof.Machine
end

section
/-!
PROOFS, family 44_alu: `add`, `mult`, `mod`, `and`, `or` and `not`. Each is one word computed from the
resolved values and written back; what the statements differ in is what that word is.
-/
namespace Sys2Proof.Machine

/-! ## The instructions by their cases (R142 to R147) -/

section
variable {a : Operand} {d : Fin 8} (hd : dst a = some d) (b c : Operand) (s : State)
include hd

theorem exec_add : exec (.add a b c) s = .next (s.writeBack d (aluAdd (val s b) (val s c)) 3) := withDst_some hd

theorem exec_mult : exec (.mult a b c) s = .next (s.writeBack d (aluMult (val s b) (val s c)) 3) := withDst_some hd

theorem exec_and : exec (.and a b c) s = .next (s.writeBack d (val s b &&& val s c) 3) := withDst_some hd

theorem exec_or : exec (.or a b c) s = .next (s.writeBack d (val s b ||| val s c) 3) := withDst_some hd

theorem exec_not : exec (.not a b) s = .next (s.writeBack d (aluNot (val s b)) 2) := withDst_some hd

variable {c s}

theorem exec_mod_nonZero (hc : val s c ≠ 0) :
    exec (.mod a b c) s = .next (s.writeBack d (aluMod (val s b) (val s c)) 3) := by
  simp only [exec, execMod, withDst_some hd, if_neg hc]

theorem exec_mod_zero (hc : val s c = 0) : exec (.mod a b c) s = .next (s.raise .divideByZero 11 none) := by
  simp only [exec, execMod, withDst_some hd, if_pos hc]

end

/-! ## What the computed words are (R140, R144, R147) -/

/-- The complement as its rule words it: exclusive or, then reduction. -/
theorem aluNot_toNat_xor (b : Word) : (aluNot b).toNat = (0xFFFF ^^^ b.toNat) % 32768 := by
  rw [aluNot, reduce_toNat, BitVec.toNat_xor]
  rfl

theorem aluMod_toNat_lt (b : Word) {c : Word} (h : c ≠ 0) : (aluMod b c).toNat < c.toNat :=
  aluMod_toNat b h ▸ Nat.mod_lt _ (toNat_pos_of_ne_zero h)

/-- Division with remainder, the quotient that of natural numbers (R144). -/
theorem toNat_eq_div_mul_add_aluMod (b : Word) {c : Word} (h : c ≠ 0) :
    b.toNat = b.toNat / c.toNat * c.toNat + (aluMod b c).toNat := by
  rw [aluMod_toNat b h, Nat.div_add_mod']

/-- An exact result that was reduced lies in 0..32767 (R140). -/
theorem reduce_toNat_lt (n : Nat) : (reduce n).toNat < 32768 :=
  reduce_toNat n ▸ Nat.mod_lt n (by decide)

/-- The register that an instruction writes back to holds the word it computed. -/
theorem reg_of_exec_writeBack {i : Instr} {s t : State} {d : Fin 8} {v : Word} {n : Nat}
    (hw : exec i s = .next (s.writeBack d v n)) (ht : exec i s = .next t) : t.reg d = v := by
  obtain rfl : s.writeBack d v n = t := Host.Outcome.next.inj (hw.symm.trans ht)
  exact s.reg_writeBack_same d v n

/-- Settles O16: each result is the computed word of its instruction, and that word is a reduced one (`add`,
`mult`, `not`), a truth value (`eq`, `gt`), or bounded because both inputs are (`and`, `or`, `mod`). -/
theorem resultsStayInRange : Obligations.ResultsStayInRange := by
  refine ⟨fun i a b c s t d hi hd ht => ?_, fun i a b c s t d hi hd ht => ?_,
    fun i a b c s t d hi hd hmod hb hc ht => ?_⟩ <;>
    simp only [List.mem_cons, List.not_mem_nil, or_false] at hi
  · obtain rfl | rfl | rfl := hi
    · rw [reg_of_exec_writeBack (exec_add hd b c s) ht]
      exact reduce_toNat_lt _
    · rw [reg_of_exec_writeBack (exec_mult hd b c s) ht]
      exact reduce_toNat_lt _
    · rw [reg_of_exec_writeBack (exec_not hd b s) ht]
      exact reduce_toNat_lt _
  · obtain rfl | rfl := hi
    · rw [reg_of_exec_writeBack (exec_eq hd b c s) ht]
      split <;> decide
    · rw [reg_of_exec_writeBack (exec_gt hd b c s) ht]
      split <;> decide
  · obtain rfl | rfl | rfl := hi
    · rw [reg_of_exec_writeBack (exec_and hd b c s) ht, BitVec.toNat_and]
      exact Nat.and_le_left.trans_lt hb
    · rw [reg_of_exec_writeBack (exec_or hd b c s) ht, BitVec.toNat_or]
      exact Nat.or_lt_two_pow (n := 15) hb hc
    · have hc0 : val s c ≠ 0 := hmod.resolve_right fun hne => hne rfl
      rw [reg_of_exec_writeBack (exec_mod_nonZero hd b hc0) ht]
      exact (aluMod_toNat_lt _ hc0).trans hc

/-- Settles O10, by whether the destination word names a register. -/
theorem addIsTheExactSumModulo32768 : Obligations.AddIsTheExactSumModulo32768 :=
  ⟨fun _ b c s _ hd => ⟨_, _, exec_add hd b c s, writesRegister_writeBack .., aluAdd_toNat ..⟩,
    fun _ _ _ _ hd => endsWith_badDestination hd, operandsPastEndExhaust rfl (by decide)⟩

/-- Settles O11, by whether the destination word names a register. -/
theorem multIsTheExactProductModulo32768 : Obligations.MultIsTheExactProductModulo32768 :=
  ⟨fun _ b c s _ hd => ⟨_, _, exec_mult hd b c s, writesRegister_writeBack .., aluMult_toNat ..⟩,
    fun _ _ _ _ hd => endsWith_badDestination hd, operandsPastEndExhaust rfl (by decide)⟩

/-- Settles O12: a divisor that is not zero, a zero one, and a destination word that names no register. -/
theorem modIsTheUnsignedRemainderOrFaults : Obligations.ModIsTheUnsignedRemainderOrFaults :=
  ⟨fun _ b _ _ _ hd hc => ⟨_, _, _, exec_mod_nonZero hd b hc, writesRegister_writeBack ..,
      toNat_eq_div_mul_add_aluMod _ hc, aluMod_toNat_lt _ hc⟩,
    fun _ b _ _ _ hd hc => endsWith_terminate (exec_mod_zero hd b hc),
    fun _ _ _ _ hd => endsWith_badDestination hd, operandsPastEndExhaust rfl (by decide)⟩

/-- Settles O13, by whether the destination word names a register. -/
theorem andIsBitwiseOnSixteenBits : Obligations.AndIsBitwiseOnSixteenBits :=
  ⟨fun _ b c s _ hd => ⟨_, _, exec_and hd b c s, writesRegister_writeBack .., fun _ _ => BitVec.getLsbD_and⟩,
    fun _ _ _ _ hd => endsWith_badDestination hd, operandsPastEndExhaust rfl (by decide)⟩

/-- Settles O14, by whether the destination word names a register. -/
theorem orIsBitwiseOnSixteenBits : Obligations.OrIsBitwiseOnSixteenBits :=
  ⟨fun _ b c s _ hd => ⟨_, _, exec_or hd b c s, writesRegister_writeBack .., fun _ _ => BitVec.getLsbD_or⟩,
    fun _ _ _ _ hd => endsWith_badDestination hd, operandsPastEndExhaust rfl (by decide)⟩

/-- Settles O15: the word written is the two-step complement, which has the closed form of R147. -/
theorem notComplementsThenReduces : Obligations.NotComplementsThenReduces :=
  ⟨fun _ b s _ hd => ⟨_, _, exec_not hd b s, writesRegister_writeBack .., aluNot_toNat_xor _, aluNot_toNat _⟩,
    fun _ _ _ hd => endsWith_badDestination hd, operandsPastEndExhaust rfl (by decide)⟩

end Sys2Proof.Machine
end

section
/-!
PROOFS, family 45_memory_access: `rmem` and `wmem`. Each has two cases, by whether its address lies in memory.
-/
namespace Sys2Proof.Machine

/-! ## The instructions by their cases (R160, R161, R208) -/

theorem exec_rmem_some {a b : Operand} {s : State} {d : Fin 8} {v : Word} (hd : dst a = some d)
    (hv : s.memRead (val s b).toNat = some v) : exec (.rmem a b) s = .next (s.writeBack d v 2) := by
  simp only [exec, execRmem, withDst_some hd, hv]

theorem exec_rmem_outside {a b : Operand} {s : State} {d : Fin 8} (hd : dst a = some d)
    (hb : 32768 ≤ (val s b).toNat) :
    exec (.rmem a b) s = .next (s.raise .addressRange 15 (some (val s b))) := by
  simp only [exec, execRmem, withDst_some hd, State.memRead_none.2 hb]

theorem exec_wmem_outside {a : Operand} {s : State} (ha : 32768 ≤ wmemAddress a s) (b : Operand) :
    exec (.wmem a b) s = .next (s.raise .addressRange 16 (some (val s a))) := by
  simp only [exec, execWmem, State.memWrite_none.2 ha]

/-- Settles O17: a cell in memory, an address outside it, and a destination word that names no register. -/
theorem rmemLoadsTheRawCell : Obligations.RmemLoadsTheRawCell :=
  ⟨fun _ _ _ _ _ hd hv => ⟨_, exec_rmem_some hd hv, writesRegister_writeBack ..⟩,
    fun _ _ _ _ hd hb => endsWith_terminate (exec_rmem_outside hd hb),
    fun _ _ _ hd => endsWith_badDestination hd, operandsPastEndExhaust rfl (by decide)⟩

/-- Settles O18: the state after is the memory write and then the jump, so its frame is that of both. -/
theorem wmemStoresAtTheResolvedAddress : Obligations.WmemStoresAtTheResolvedAddress := by
  refine ⟨fun a b s hwf ha => ?_, fun a b s ha => endsWith_terminate (exec_wmem_outside ha b),
    operandsPastEndExhaust rfl (by decide)⟩
  have hw : s.memWrite (wmemAddress a s) (val s b) = some _ := State.memWrite_some.2 ⟨ha, rfl⟩
  exact ⟨_, exec_wmem_some hw, (State.jump_memRead ..).trans (State.memWrite_same hwf hw),
    fun _ hc => (State.jump_memRead ..).trans (State.memWrite_other hw hc), fun _ => rfl, rfl, rfl,
    advances_of_pc_eq rfl, rfl, rfl, rfl⟩

end Sys2Proof.Machine
end

section
/-!
PROOFS, family 46_call_ret: `call` is a push and a jump, `ret` a jump to the word on top of the stack.
-/
namespace Sys2Proof.Machine

/-! ## The instructions by their cases (R170, R171) -/

theorem exec_call (a : Operand) (s : State) : exec (.call a) s = .next ((s.push (s.npc 1)).jump (val s a)) := by
  simp only [exec, execCall, execCallWith, State.stackFull_infinite, Bool.false_eq_true, if_false]

theorem exec_ret_nonempty {s : State} {rest : List Word} {v : Word} (hs : s.stack = rest ++ [v]) :
    exec .ret s = .next (State.jump { s with stack := rest } v) := by
  have hpop : s.pop? = some (v, { s with stack := rest }) := State.pop?_some.2 ⟨rest, hs, rfl⟩
  simp only [exec, execRet, hpop]

theorem exec_ret_empty {s : State} (hs : s.stack = []) : exec .ret s = .next (s.raise .halted 18 none) := by
  simp only [exec, execRet, State.pop?_none.2 hs]

/-- After a push and a jump, `ret` undoes both but for the pc, which gets the word pushed. -/
theorem exec_ret_after_push (s : State) (w t : Word) : exec .ret ((s.push w).jump t) = .next (s.jump w) :=
  exec_ret_nonempty (s := (s.push w).jump t) (s.push_stack w)

/-- A running machine with 18 at its pc runs `ret` on the opcode word alone (30_encoding.md R77). -/
theorem step_ret {s : State} (hr : s.run = .running) (hm : s.memRead s.pc.toNat = some 18) : step s = exec .ret s := by
  have hd : decode (18 :: s.operandWords) = .ok (.ret, s.operandWords) := rfl
  exact step_fetch_ok hr (fetch_of_decode_ok hm hd)

/-- Settles O24: a `ret` after the `call` is, from the state before both, the jump to the return address. -/
theorem callThenRetResumes : Obligations.CallThenRetResumes := fun a s =>
  ⟨_, s.jump (s.npc 1), exec_call a s, exec_ret_after_push .., State.jump_pc ..,
    advances_of_pc_eq (s.jump_pc _), onlyMovesPc_jump ..⟩

/-- Settles O21: the stack of this hardware is never full, and the return address does not wrap (R25). -/
theorem callPushesTheReturnAddress : Obligations.CallPushesTheReturnAddress :=
  ⟨fun a s => ⟨_, exec_call a s, rfl, State.jump_pc .., fun _ => rfl, fun _ => rfl, rfl, ⟨rfl, rfl, rfl⟩,
      fun hp => s.npc_toNat 1 (by omega)⟩,
    operandsPastEndExhaust rfl (by decide)⟩

/-- Settles O22: a nonempty stack, a word that `push` put there, an empty stack, and the opcode fetch. -/
theorem retJumpsToTheTopOrHalts : Obligations.RetJumpsToTheTopOrHalts := by
  refine ⟨fun s rest v hs => ?_, fun a s => ⟨_, _, exec_push a s, exec_ret_after_push .., s.jump_pc _⟩,
    fun s hs => endsWith_terminate (exec_ret_empty hs), fun _ => rfl, fun _ => step_ret⟩
  obtain ⟨hregs, hstack, hmem, hout, hrun⟩ := onlyMovesPc_jump { s with stack := rest } v
  exact ⟨_, exec_ret_nonempty hs, State.jump_pc .., hstack, hregs, hmem, hout, hrun,
    endsWith_step_jump (s := { s with stack := rest })⟩

end Sys2Proof.Machine
end

section
/-!
PROOFS, family 47_system: `halt`, `out`, `in` and `noop`.
-/
namespace Sys2Proof.Machine

/-! ## The instructions by their effect (R180 to R183) -/

theorem exec_halt (s : State) : exec .halt s = .next (s.raise .halted 0 none) := rfl

theorem exec_out (a : Operand) (s : State) :
    exec (.out a) s = .next ((s.emit (lowByte (val s a))).jump (s.npc 1)) := rfl

theorem exec_inp (a : Operand) (s : State) : exec (.inp a) s = .next (s.raise .unimplementedInput 20 none) := rfl

theorem exec_noop (s : State) : exec .noop s = .next (s.jump (s.npc 0)) := rfl

/-- A cell the image does not fill reads 0 after reset, which is the opcode word of `halt` (R53, R180). -/
theorem memRead_resetWith_beyond {image : List Word} {a : Nat} (hl : image.length ≤ a) (ha : a < 32768) :
    (State.resetWith image).memRead a = some 0 :=
  State.memRead_some.2 ⟨ha, (Memory.get_ofImage (by omega) a).trans (List.getD_eq_default _ _ hl)⟩

/-- At the last cell the pc after an instruction of one word is the first address outside memory (R25). -/
theorem npc_zero_of_last {s : State} (h : s.pc = 32767) : s.npc 0 = 32768 := by
  rw [State.npc, h]
  rfl

/-- Settles O27: a step at the opcode word 0 is `halt`, and 0 is what an unfilled cell reads. -/
theorem haltEndsTheRun : Obligations.HaltEndsTheRun :=
  ⟨fun s => endsWith_terminate (exec_halt s), fun s hr hm => (step_halt hr hm rfl).trans (exec_halt s).symm,
    fun _ _ => memRead_resetWith_beyond, fun _ => rfl⟩

/-- Settles O28: the state after is the byte appended and then the jump, so its frame is that of both. -/
theorem outAppendsTheLowByte : Obligations.OutAppendsTheLowByte :=
  ⟨fun a s => ⟨_, lowByte (val s a), exec_out a s, State.jump_out .., lowByte_toNat _, fun _ => rfl,
      advances_of_pc_eq (State.jump_pc ..), rfl, fun _ => rfl, rfl, rfl, rfl⟩,
    operandsPastEndExhaust rfl (by decide)⟩

/-- Settles O29: the step ends the run whether or not the operand word lies in memory (D6). -/
theorem inAlwaysFaults : Obligations.InAlwaysFaults :=
  ⟨fun a s => endsWith_terminate (exec_inp a s), fun _ hr hm => endsWith_terminate (step_inp hr hm rfl)⟩

/-- Settles O30: `noop` is the jump to the next word, which at 32767 is a jump out of memory. -/
theorem noopOnlyAdvances : Obligations.NoopOnlyAdvances := by
  refine ⟨fun s => ⟨_, exec_noop s, onlyMovesPc_jump .., advances_of_pc_eq (s.jump_pc _), fun hr hp => ?_⟩,
    fun s hr hm => (step_noop hr hm rfl).trans (exec_noop s).symm⟩
  rw [npc_zero_of_last hp]
  exact endsWith_step_jump hr (by decide)

end Sys2Proof.Machine
end

section
/-!
PROOFS, families 60_exceptions and 70_reset_and_hazards: how a run ends, and which steps do not end it.
-/
namespace Sys2Proof.Machine

/-! ## A step that ends the run (R207, R211) -/

/-- A step that ends the run does nothing else, by a true record of an outcome this hardware can have. -/
theorem step_ended {s t : State} {r : TermRecord} (hr : s.run = .running) (h : step s = .next t)
    (ht : t.run = .terminated r) : t = s.terminate r ∧ r.trueOf s ∧ r.outcome ≠ .stackOverflow := by
  rcases step_ends_or_goesOn hr h with ⟨q, rfl, isTrue, possible⟩ | ⟨hrun, -, -⟩
  · cases ht
    exact ⟨rfl, isTrue, possible⟩
  · cases (hrun.trans hr).symm.trans ht

/-- Settles O38: such a step is `State.terminate`. -/
theorem terminatingStepsCommitNothing : Obligations.TerminatingStepsCommitNothing := by
  intro s t r hr h ht
  obtain ⟨rfl, -, -⟩ := step_ended hr h ht
  exact ended_terminate s r

/-! ## A finite stack (R28, R212, D13) -/

section
variable {cap : Option Nat} {s : State} (a : Operand)

theorem execPushWith_full (h : s.stackFull cap = true) :
    execPushWith cap a s = .next (s.raise .stackOverflow 2 none) := if_pos h

theorem execCallWith_full (h : s.stackFull cap = true) :
    execCallWith cap a s = .next (s.raise .stackOverflow 17 none) := if_pos h

theorem execPushWith_notFull (h : s.stackFull cap = false) : execPushWith cap a s = exec (.push a) s :=
  (if_neg (Bool.eq_false_iff.1 h)).trans (exec_push a s).symm

theorem execCallWith_notFull (h : s.stackFull cap = false) : execCallWith cap a s = exec (.call a) s :=
  (if_neg (Bool.eq_false_iff.1 h)).trans (exec_call a s).symm

end

/-- Settles O26, by whether the stack is full; the hardware's own stack never is. -/
theorem onlyAFiniteStackOverflows : Obligations.OnlyAFiniteStackOverflows := by
  refine ⟨fun a s => ?_, fun c a s hc => ?_, fun s t r hr h ht => ?_⟩
  · have full : s.stackFull (some s.depth) = true := decide_eq_true rfl
    exact ⟨endsWith_terminate (execPushWith_full a full), endsWith_terminate (execCallWith_full a full)⟩
  · have notFull : s.stackFull (some c) = false := decide_eq_false hc
    exact ⟨execPushWith_notFull a notFull, execCallWith_notFull a notFull⟩
  · obtain ⟨-, -, possible⟩ := step_ended hr h ht
    exact possible

/-! ## The three ways to end as Halted (R210) -/

/-- The step ends the run as Halted. -/
def StepHalts (s : State) : Prop := ∃ t r, step s = .next t ∧ t.run = .terminated r ∧ r.outcome = .halted

section
variable {s : State}

theorem stepHalts_iff_of_terminate {r : TermRecord} (h : step s = .next (s.terminate r)) :
    StepHalts s ↔ r.outcome = .halted := by
  refine ⟨fun ⟨t, q, ht, hq, ho⟩ => ?_, fun ho => ⟨_, r, h, s.terminate_run r, ho⟩⟩
  cases h.symm.trans ht
  cases hq
  exact ho

theorem not_stepHalts_of_running {t : State} (h : step s = .next t) (ht : t.run = .running) : ¬ StepHalts s := by
  rintro ⟨u, q, hu, hq, -⟩
  cases h.symm.trans hu
  cases ht.symm.trans hq

variable (hr : s.run = .running)
include hr

/-- The opcode word of a step that halts is one of the three that R200 lists for Halted. -/
theorem opcode_of_stepHalts (h : StepHalts s) :
    s.memRead s.pc.toNat = some 0 ∨ s.memRead s.pc.toNat = some 3 ∨ s.memRead s.pc.toNat = some 18 := by
  obtain ⟨t, r, hs, ht, ho⟩ := h
  obtain ⟨-, ⟨hword, hraised, -⟩, -⟩ := step_ended hr hs ht
  simp only [ho, reduceCtorEq, false_and, if_false] at hword hraised
  obtain ⟨-, hp, hword⟩ := hword
  rw [State.memRead_eq hp] at hword ⊢
  simpa [TermOutcome.raisedBy] using hraised _ hword

theorem stepHalts_of_opcode_zero (hm : s.memRead s.pc.toNat = some 0) : StepHalts s :=
  (stepHalts_iff_of_terminate (step_halt hr hm rfl)).2 rfl

theorem stepHalts_ret_iff (hm : s.memRead s.pc.toNat = some 18) : StepHalts s ↔ s.stack = [] := by
  have hs : step s = exec .ret s := step_ret hr hm
  rcases s.stack.eq_nil_or_concat' with hnil | ⟨rest, v, hcons⟩
  · exact iff_of_true ((stepHalts_iff_of_terminate (hs.trans (exec_ret_empty hnil))).2 rfl) hnil
  · exact iff_of_false (not_stepHalts_of_running (hs.trans (exec_ret_nonempty hcons)) hr) (by simp [hcons])

/-- A running machine with 3 and an operand word at its pc runs `pop` (30_encoding.md R74). -/
theorem step_pop {w : Word} (hm : s.memRead s.pc.toNat = some 3) (hw : s.memRead (s.pc.toNat + 1) = some w) :
    step s = exec (.pop (.ofWord w)) s := by
  have hops : s.operandWords = w :: s.wordsFrom (s.pc.toNat + 2) 2 := State.wordsFrom_succ hw 2
  have hd : decode (3 :: s.operandWords) = .ok (.pop (.ofWord w), s.wordsFrom (s.pc.toNat + 2) 2) := by
    rw [hops]
    rfl
  exact step_fetch_ok hr (fetch_of_decode_ok hm hd)

theorem stepHalts_pop_iff (hm : s.memRead s.pc.toNat = some 3) :
    StepHalts s ↔ s.stack = [] ∧ ∃ w d, s.memRead (s.pc.toNat + 1) = some w ∧ dst (.ofWord w) = some d := by
  rcases hw : s.memRead (s.pc.toNat + 1) with _ | w
  · have hs := step_operandMissing hr hm (n := 1) rfl (State.memRead_none.1 hw)
    exact iff_of_false (fun h => nomatch (stepHalts_iff_of_terminate hs).1 h) (by simp)
  · have hs : step s = exec (.pop (.ofWord w)) s := step_pop hr hm hw
    rcases hd : dst (.ofWord w) with _ | d
    · have hs := hs.trans (withDst_none hd)
      exact iff_of_false (fun h => nomatch (stepHalts_iff_of_terminate hs).1 h) (by simp [hd])
    · rcases s.stack.eq_nil_or_concat' with hnil | ⟨rest, v, hcons⟩
      · exact iff_of_true ((stepHalts_iff_of_terminate (hs.trans (exec_pop_empty hd hnil))).2 rfl)
          ⟨hnil, w, d, rfl, hd⟩
      · exact iff_of_false (not_stepHalts_of_running (hs.trans (exec_pop_nonempty hd hcons)) hr) (by simp [hcons])

end

/-- Settles O40: the opcode word is 0, 3 or 18, and each has its own condition. -/
theorem haltedIsReachedInThreeWays : Obligations.HaltedIsReachedInThreeWays := by
  refine ⟨fun s hr => ⟨fun h => ?_, ?_⟩, fun _ => rfl⟩
  · rcases opcode_of_stepHalts hr h with hm | hm | hm
    · exact .inl hm
    · exact .inr (.inr ⟨hm, (stepHalts_pop_iff hr hm).1 h⟩)
    · exact .inr (.inl ⟨hm, (stepHalts_ret_iff hr hm).1 h⟩)
  · rintro (hm | ⟨hm, hs⟩ | ⟨hm, hs⟩)
    · exact stepHalts_of_opcode_zero hr hm
    · exact (stepHalts_ret_iff hr hm).2 hs
    · exact (stepHalts_pop_iff hr hm).2 hs

/-! ## Instructions that meet the premises of R233 -/

/-- The answer is a next state that is Running or has ended as Halted. -/
def GoesOnOrHalts (answer : Result) : Prop :=
  ∃ t, answer = .next t ∧ (t.run = .running ∨ ∃ r, t.run = .terminated r ∧ r.outcome = .halted)

theorem goesOnOrHalts_of_running {answer : Result} {t : State} (h : answer = .next t) (ht : t.run = .running) :
    GoesOnOrHalts answer := ⟨t, h, .inl ht⟩

theorem goesOnOrHalts_of_raise {answer : Result} {s : State} {op : Word} {info : Option Word}
    (h : answer = .next (s.raise .halted op info)) : GoesOnOrHalts answer :=
  ⟨_, h, .inr ⟨_, s.raise_run .halted op info, rfl⟩⟩

/-- Premise (a): a destination word in 32768..32775 names a register. -/
theorem exists_dst_of_isRegister {a : Operand} (h : a.isRegister = true) : ∃ d, dst a = some d := by
  cases a with
  | register i => exact ⟨i, dst_register i⟩
  | literal | malformed => cases h

theorem goesOnOrHalts_of_writeBack {s : State} {a : Operand} {v : Word} {n : Nat} {answer : Result}
    (hr : s.run = .running) (ha : a.isRegister = true) (h : ∀ d, dst a = some d → answer = .next (s.writeBack d v n)) :
    GoesOnOrHalts answer := by
  obtain ⟨d, hd⟩ := exists_dst_of_isRegister ha
  exact goesOnOrHalts_of_running (h d hd) hr

/-- An instruction whose premises hold ends the run as Halted or not at all. -/
theorem exec_goesOnOrHalts {i : Instr} {s : State} (hr : s.run = .running) (h : SourceDefined i s) :
    GoesOnOrHalts (exec i s) := by
  cases i with
  | halt => exact goesOnOrHalts_of_raise (exec_halt s)
  | set a b => exact goesOnOrHalts_of_writeBack hr h.1 fun _ hd => exec_set hd b s
  | push a => exact goesOnOrHalts_of_running (exec_push a s) hr
  | pop a =>
    obtain ⟨d, hd⟩ := exists_dst_of_isRegister h
    rcases s.stack.eq_nil_or_concat' with hnil | ⟨rest, v, hcons⟩
    · exact goesOnOrHalts_of_raise (exec_pop_empty hd hnil)
    · exact goesOnOrHalts_of_running (exec_pop_nonempty hd hcons) hr
  | eq a b c => exact goesOnOrHalts_of_writeBack hr h.1 fun _ hd => exec_eq hd b c s
  | gt a b c => exact goesOnOrHalts_of_writeBack hr h.1 fun _ hd => exec_gt hd b c s
  | jmp a => exact goesOnOrHalts_of_running (t := s.jump _) rfl hr
  | jt a b => exact goesOnOrHalts_of_running (t := s.jump _) rfl hr
  | jf a b => exact goesOnOrHalts_of_running (t := s.jump _) rfl hr
  | add a b c => exact goesOnOrHalts_of_writeBack hr h.1 fun _ hd => exec_add hd b c s
  | mult a b c => exact goesOnOrHalts_of_writeBack hr h.1 fun _ hd => exec_mult hd b c s
  | mod a b c =>
    obtain ⟨ha, -, -, hc⟩ := h
    exact goesOnOrHalts_of_writeBack hr ha fun _ hd => exec_mod_nonZero hd b hc
  | and a b c => exact goesOnOrHalts_of_writeBack hr h.1 fun _ hd => exec_and hd b c s
  | or a b c => exact goesOnOrHalts_of_writeBack hr h.1 fun _ hd => exec_or hd b c s
  | not a b => exact goesOnOrHalts_of_writeBack hr h.1 fun _ hd => exec_not hd b s
  | rmem a b =>
    obtain ⟨ha, -, hb⟩ := h
    exact goesOnOrHalts_of_writeBack hr ha fun _ hd => exec_rmem_some hd (State.memRead_eq hb)
  | wmem a b =>
    obtain ⟨-, -, ha⟩ := h
    exact goesOnOrHalts_of_running (exec_wmem_some (State.memWrite_some.2 ⟨ha, rfl⟩)) hr
  | call a => exact goesOnOrHalts_of_running (exec_call a s) hr
  | ret =>
    rcases s.stack.eq_nil_or_concat' with hnil | ⟨rest, v, hcons⟩
    · exact goesOnOrHalts_of_raise (exec_ret_empty hnil)
    · exact goesOnOrHalts_of_running (exec_ret_nonempty hcons) hr
  | out a => exact goesOnOrHalts_of_running (exec_out a s) hr
  | inp a => exact h.elim
  | noop => exact goesOnOrHalts_of_running (exec_noop s) hr

/-- Settles O41: the step is the instruction's `exec`. -/
theorem sourceDefinedInstructionsGoOnOrHalt : Obligations.SourceDefinedInstructionsGoOnOrHalt := by
  intro s i rest hr hd h
  rw [step_fetch_ok hr (fetch_eq_ok hd)]
  exact exec_goesOnOrHalts hr h

/-! ## The status numbers (R6, R200, R201) -/

/-- The outcomes whose status the source states. -/
def TermOutcome.statedStatus : List TermOutcome := [.halted, .unimplementedInput, .invalidOpcode]

/-- The outcomes whose status is an open number of R6 (D15). -/
def TermOutcome.openStatus : List TermOutcome :=
  [.pointerExhausted, .invalidRegister, .divideByZero, .addressRange, .stackOverflow]

theorem TermOutcome.mem_stated_or_open (o : TermOutcome) : o ∈ statedStatus ++ openStatus := by
  cases o <;> decide

/-- R6's constraints, said of the statuses. -/
theorem statusNumbers_wf_iff {n : Config.StatusNumbers} :
    n.wf = true ↔
      (∀ o ∈ TermOutcome.openStatus, statusOf n o < 0 ∧ statusOf n o ≠ -1 ∧ statusOf n o ≠ -2) ∧
        (TermOutcome.openStatus.map (statusOf n)).Nodup := by
  simp [Config.StatusNumbers.wf, TermOutcome.openStatus, statusOf, and_assoc]

theorem map_statusOf_statedStatus (n : Config.StatusNumbers) :
    TermOutcome.statedStatus.map (statusOf n) = [0, -1, -2] := rfl

section
variable {n : Config.StatusNumbers} (h : n.wf = true)
include h

/-- No two outcomes share a status: the stated ones are 0, -1 and -2, and the open ones avoid these. -/
theorem statuses_nodup : ((TermOutcome.statedStatus ++ TermOutcome.openStatus).map (statusOf n)).Nodup := by
  obtain ⟨hopen, hnodup⟩ := statusNumbers_wf_iff.1 h
  rw [List.map_append, List.nodup_append, map_statusOf_statedStatus]
  refine ⟨by decide, hnodup, fun x hx y hy => ?_⟩
  obtain ⟨o, ho, rfl⟩ := List.mem_map.1 hy
  have := hopen o ho
  simp only [List.mem_cons, List.not_mem_nil, or_false] at hx
  omega

theorem statusOf_injective : Function.Injective (statusOf n) := fun o o' heq =>
  List.inj_on_of_nodup_map (statuses_nodup h) o.mem_stated_or_open o'.mem_stated_or_open heq

theorem statusOf_neg_iff (o : TermOutcome) : statusOf n o < 0 ↔ o ≠ .halted := by
  rcases List.mem_append.1 o.mem_stated_or_open with ho | ho
  · simp only [TermOutcome.statedStatus, List.mem_cons, List.not_mem_nil, or_false] at ho
    rcases ho with rfl | rfl | rfl <;> simp [statusOf]
  · obtain ⟨hopen, -⟩ := statusNumbers_wf_iff.1 h
    refine iff_of_true (hopen o ho).1 ?_
    rintro rfl
    revert ho
    decide

end

/-- Settles O52: distinct statuses make `statusOf` injective. -/
theorem statusesTellOutcomesApart : Obligations.StatusesTellOutcomesApart := fun _ h =>
  ⟨fun _ _ heq => statusOf_injective h heq, statusOf_neg_iff h, rfl, rfl, rfl⟩

/-! ## A second reset (R235) -/

theorem launch_eq {image : List Word} (h : image.length ≤ 32768) : launch image = .next (State.resetWith image) :=
  if_pos h

/-- A machine whose run has ended is reset as if it were new. -/
theorem hostReset_terminated {s : State} {r : TermRecord} (h : s.run = .terminated r) (image : List Word) :
    hostReset image s = launch image := by simp only [hostReset, h]

/-- Settles O51: nothing of the old state but its having ended is looked at. -/
theorem resetForgetsThePreviousRun : Obligations.ResetForgetsThePreviousRun := fun image _ _ hs hl =>
  ⟨hostReset_terminated hs image, (hostReset_terminated hs image).trans (launch_eq hl)⟩

end Sys2Proof.Machine
end
